-- ==== Sys2Proof/Word.lean ====
section
/-! DEFINITION. The one word of the machine: the byte (R8, `WORD_WIDTH` of R6). -/

namespace Sys2Proof

/-- A register, a memory cell, FL, PC, SP or an operand: an unsigned value 0..255 (R8).
Bit 0 is the least significant bit (R7). -/
abbrev Byte := BitVec 8

end Sys2Proof
end

