-- ==== Sys2Proof/Config.lean ====
section
/-! DEFINITION. The implementation parameters of R6, and the dispatch table's rows: the thirteen
handlers with the two attributes each carries (R32, R68). No parameter is left open, so no free value stands here. -/

namespace Sys2Proof

namespace Config

/-- `MEM_SIZE`: addresses 0..255 (R6, R15). -/
def memSize : Nat := 256

/-- `NREG` (R6, R17). -/
abbrev numRegs : Nat := 8

/-- `PC_INIT` (R6, R24; decision D4 of the spec). -/
def pcInit : Byte := 0x00

/-- `SP_INIT` (R6, R22; decision D5 of the spec). -/
def spInit : Byte := 0xF4

/-- `SP_SEED_REG`: R7 starts as a copy of `SP_INIT` (R6, R18; decision D5 of the spec). -/
def spSeedReg : Fin numRegs := 7

/-- `FL_INIT` (R6, R27; decision D3 of the spec). -/
def flInit : Byte := 0x00

end Config

/-- The thirteen handlers that the dispatch table names (R66), under their canonical mnemonics (R76). -/
inductive Mnemonic where
  | halt | ldi | prn | mul | add | cmp | push | pop | call | ret | jmp | jeq | jne
  deriving DecidableEq, Repr

namespace Mnemonic

/-- Every handler once, in the table's order (R66). -/
def all : List Mnemonic :=
  [.halt, .ldi, .prn, .mul, .add, .cmp, .push, .pop, .call, .ret, .jmp, .jeq, .jne]

/-- The operand count of the handler's row in the instruction table: the formats F0, F1 and F2 (R64, R67). -/
def operandCount : Mnemonic → Nat
  | .halt | .ret => 0
  | .prn | .push | .pop | .call | .jmp | .jeq | .jne => 1
  | .ldi | .mul | .add | .cmp => 2

/-- "PC-owned by handler?" of the handler's row: the handler itself sets PC (R67). -/
def pcOwned : Mnemonic → Bool
  | .call | .ret | .jmp | .jeq | .jne => true
  | .halt | .ldi | .prn | .mul | .add | .cmp | .push | .pop => false

end Mnemonic

/-- `OPCODE_MAP`, the parameter of R6: which opcode byte stands for which handler.
The default is `Sys2Proof.opcodeMap`; any map has to obey R63 (`OpcodeMap.wellFormed`). -/
abbrev OpcodeMap := Mnemonic → Byte

end Sys2Proof
end

