-- ==== Sys2Proof/Syntax.lean ====
section
/-! DEFINITION. The instructions: one constructor per row of spec/opcode_table.json. -/

namespace Sys2Proof

/-- An instruction with its operand bytes. `a` is operand_a and `b` is operand_b (R64).
Every operand is a whole byte and every byte is accepted in it (R65, R71). -/
inductive Instr where
  /-- F0: stop the machine (R101). -/
  | halt
  /-- F2: register `a`, literal `b` (R102). -/
  | ldi (a b : Byte)
  /-- F1: register `a` (R103). -/
  | prn (a : Byte)
  /-- F2: registers `a` and `b` (R112). -/
  | mul (a b : Byte)
  /-- F2: registers `a` and `b` (R113). -/
  | add (a b : Byte)
  /-- F2: registers `a` and `b` (R114). -/
  | cmp (a b : Byte)
  /-- F1: register `a` (R121). -/
  | push (a : Byte)
  /-- F1: register `a` (R122). -/
  | pop (a : Byte)
  /-- F1: register `a` (R131). -/
  | call (a : Byte)
  /-- F0 (R132). -/
  | ret
  /-- F1: register `a` (R133). -/
  | jmp (a : Byte)
  /-- F1: register `a` (R134). -/
  | jeq (a : Byte)
  /-- F1: register `a` (R135). -/
  | jne (a : Byte)
  deriving DecidableEq, Repr

end Sys2Proof
end

