-- ==== Sys2Proof/WellFormed.lean ====
section
/-! DEFINITION. Two checks on terms: an instruction names only registers that exist (R11, R17), and an opcode map
obeys the four constraints of R63. An ill-formed instruction still encodes, decodes and runs: it raises
AddressOutOfRange when it executes (R65, R71, R143). -/

namespace Sys2Proof

/-- The operands that are register indices, in operand order (R65, R143). LDI's `b` is a literal. -/
def Instr.regOperands : Instr → List Byte
  | .halt => []
  | .ldi a _ => [a]
  | .prn a => [a]
  | .mul a b => [a, b]
  | .add a b => [a, b]
  | .cmp a b => [a, b]
  | .push a => [a]
  | .pop a => [a]
  | .call a => [a]
  | .ret => []
  | .jmp a => [a]
  | .jeq a => [a]
  | .jne a => [a]

/-- Every register operand is a valid index, 0..7 (R11 "register index", R17). -/
def Instr.wellFormed (i : Instr) : Bool :=
  i.regOperands.all fun r => r.toNat < Config.numRegs

namespace OpcodeMap

/-- R63, first constraint: bits 7:6 of each registered opcode are its row's operand count. -/
def countsMatch (map : OpcodeMap) : Bool :=
  Mnemonic.all.all fun m => ((map m).extractLsb' 6 2).toNat == m.operandCount

/-- R63, second constraint: bit 4 is 1 exactly on the rows whose handler owns PC. -/
def ownershipMatches (map : OpcodeMap) : Bool :=
  Mnemonic.all.all fun m => (map m).getLsbD 4 == m.pcOwned

/-- R63, third constraint: the registered opcodes are pairwise distinct. -/
def distinct (map : OpcodeMap) : Bool :=
  Mnemonic.all.all fun m => Mnemonic.all.all fun k => (map m != map k) || (m == k)

/-- R63, fourth constraint: no registered opcode has bits 7:6 = 3. -/
def noCountThree (map : OpcodeMap) : Bool :=
  Mnemonic.all.all fun m => ((map m).extractLsb' 6 2).toNat != 3

/-- The constraints of R63 on an opcode map. -/
def wellFormed (map : OpcodeMap) : Bool :=
  countsMatch map && ownershipMatches map && distinct map && noCountThree map

end OpcodeMap

end Sys2Proof
end

