-- ==== Sys2Proof/Decode.lean ====
section
/-! DEFINITION. The opcode map, the opcode decoder, the dispatcher's lookup, the decoder of a byte sequence, and the
encoder (30_encoding.md). The decoder and the encoder take the opcode map as an argument, as R6 lets a model do; the
machine uses the decided map. -/

namespace Sys2Proof

/-- The decided opcode map (R66; the values are the spec's decision D1). -/
def opcodeMap : OpcodeMap
  | .halt => 0x01
  | .ldi => 0x82
  | .prn => 0x47
  | .mul => 0xA2
  | .add => 0xA0
  | .cmp => 0xA7
  | .push => 0x45
  | .pop => 0x46
  | .call => 0x50
  | .ret => 0x11
  | .jmp => 0x54
  | .jeq => 0x55
  | .jne => 0x56

/-- The operand count that the opcode byte encodes, `op[7:6]` (R62, R86). -/
def operandCountBits (op : Byte) : Nat := (op.extractLsb' 6 2).toNat

/-- The PC-ownership bit of the opcode byte, `op[4]` (R62, R86). -/
def pcOwnedBit (op : Byte) : Bool := op.getLsbD 4

/-- The dispatch table: the handler registered for an opcode byte. The whole byte is matched (R66, R85). -/
def lookupWith (map : OpcodeMap) (op : Byte) : Option Mnemonic :=
  Mnemonic.all.find? fun m => map m == op

/-- The dispatch table of this machine (R32, R66). -/
def lookup (op : Byte) : Option Mnemonic := lookupWith opcodeMap op

/-- A handler with its operand bytes. F0 takes neither byte and F1 takes only `a` (R64, R65). -/
def instrOf (m : Mnemonic) (a b : Byte) : Instr :=
  match m with
  | .halt => .halt
  | .ldi => .ldi a b
  | .prn => .prn a
  | .mul => .mul a b
  | .add => .add a b
  | .cmp => .cmp a b
  | .push => .push a
  | .pop => .pop a
  | .call => .call a
  | .ret => .ret
  | .jmp => .jmp a
  | .jeq => .jeq a
  | .jne => .jne a

/-- What the loop's dispatcher makes of the opcode and the two candidate operands: an instruction, or
none where no handler is registered (R85, R87). -/
def dispatch (op a b : Byte) : Option Instr := (lookup op).map fun m => instrOf m a b

/-- Why a byte sequence is no instruction. -/
inductive DecodeRefusal where
  /-- There is no opcode byte. -/
  | noBytes
  /-- No handler is registered for this opcode: it has no width (R69, R73). -/
  | unregistered (op : Byte)
  /-- The sequence ends before the operand bytes that the opcode announces (R61). -/
  | missingOperand (op : Byte)
  deriving DecidableEq, Repr

/-- Decode the first instruction of a byte sequence and give back the bytes after it: opcode, operand_a, operand_b
at increasing addresses (R61, R73, R74). Only the `n` operand bytes are consumed. -/
def decodeWith (map : OpcodeMap) : List Byte → Except DecodeRefusal (Instr × List Byte)
  | [] => .error .noBytes
  | op :: rest =>
    match lookupWith map op with
    | none => .error (.unregistered op)
    | some m =>
      match m.operandCount, rest with
      | 0, rest => .ok (instrOf m 0 0, rest)
      | 1, a :: rest => .ok (instrOf m a 0, rest)
      | 2, a :: b :: rest => .ok (instrOf m a b, rest)
      | _, _ => .error (.missingOperand op)

/-- The decoder under the decided map (R66). -/
def decode (bytes : List Byte) : Except DecodeRefusal (Instr × List Byte) := decodeWith opcodeMap bytes

/-- The handler of an instruction. -/
def Instr.mnemonic : Instr → Mnemonic
  | .halt => .halt
  | .ldi _ _ => .ldi
  | .prn _ => .prn
  | .mul _ _ => .mul
  | .add _ _ => .add
  | .cmp _ _ => .cmp
  | .push _ => .push
  | .pop _ => .pop
  | .call _ => .call
  | .ret => .ret
  | .jmp _ => .jmp
  | .jeq _ => .jeq
  | .jne _ => .jne

/-- The operand bytes that belong to an instruction, in order (R64). -/
def Instr.operands : Instr → List Byte
  | .halt => []
  | .ldi a b => [a, b]
  | .prn a => [a]
  | .mul a b => [a, b]
  | .add a b => [a, b]
  | .cmp a b => [a, b]
  | .push a => [a]
  | .pop a => [a]
  | .call a => [a]
  | .ret => []
  | .jmp a => [a]
  | .jeq a => [a]
  | .jne a => [a]

/-- Encode: the opcode byte, then operand_a and operand_b as the format has them (R78). -/
def encodeWith (map : OpcodeMap) (i : Instr) : List Byte := map i.mnemonic :: i.operands

/-- The encoder under the decided map (R66, R78). -/
def encode (i : Instr) : List Byte := encodeWith opcodeMap i

/-- The instruction's width in bytes, 1 + operand count (R61). -/
def Instr.width (i : Instr) : Nat := 1 + i.mnemonic.operandCount

/-- The static decoder of R73 over at most `fuel` instructions: the instructions from the start of a byte sequence,
and the bytes from which it cannot go on (an unregistered opcode, a cut-off instruction, or the end). -/
def disassembleFuel : Nat → List Byte → List Instr × List Byte
  | 0, bytes => ([], bytes)
  | fuel + 1, bytes =>
    match decode bytes with
    | .error _ => ([], bytes)
    | .ok (i, rest) =>
      let (is, left) := disassembleFuel fuel rest
      (i :: is, left)

/-- The static decoder of R73. Every instruction takes at least one byte, so the length bounds the walk. -/
def disassemble (bytes : List Byte) : List Instr × List Byte := disassembleFuel bytes.length bytes

/-- The bytes of an instruction word numbered as spec/opcode_table.json numbers it, up to the longest instruction:
bits 7:0 are the opcode, the first byte in memory; bits at or above `nbits` are 0. -/
def tableWordBytes (nbits w : Nat) : List Byte :=
  let v := w % 2 ^ nbits
  [BitVec.ofNat 8 v, BitVec.ofNat 8 (v / 256), BitVec.ofNat 8 (v / 65536)]

/-- The instruction that the decoder reads from a word of spec/opcode_table.json, none where it refuses. -/
def decodeTableWord (nbits w : Nat) : Option Instr :=
  match decode (tableWordBytes nbits w) with
  | .ok (i, _) => some i
  | .error _ => none

end Sys2Proof
end

