-- ==== Sys2Proof/Machine/State.lean ====
section
/-! DEFINITION. The machine's state (R33), the error record (R145), the run outcome (R29), the reasons a step
can stop, and the state at construction (R162). -/

namespace Sys2Proof.Machine

/-- An operation asked of the ALU (R111). `other` is any operation that it does not implement, by its name (R145, R146);
that such a request can be written at all is what makes R146 a statement (DESIGN CHOICE, log 9, safe). -/
inductive AluOp where
  | add
  | mul
  | compare
  | other (name : String)
  deriving DecidableEq, Repr

/-- The two spaces an address or index can miss (R145, `space`). -/
inductive Space where
  | memory
  | register
  deriving DecidableEq, Repr

/-- The three error kinds (R141), each with what its record carries (R145). -/
inductive ErrorCause where
  /-- A memory address outside 0..255, or a register index of 8 or more (R142, R143). `value` is the offending address
  or index, or the value a pointer would have taken: -1 and 256 occur. -/
  | addressOutOfRange (space : Space) (value : Int)
  /-- The opcode has no entry in the dispatch table (R144). -/
  | decodeError
  /-- The ALU does not implement the operation (R146). -/
  | unsupportedAluOperation (op : AluOp)
  deriving DecidableEq, Repr

/-- The record of a fatal error (R145): the cause, and the address and byte of the faulting instruction's opcode.
The record's fields kind, code, space, value and alu_op are read off the cause (Machine/Errors.lean, log 10). -/
structure ErrorRecord where
  cause : ErrorCause
  pc : Byte
  opcode : Byte
  deriving DecidableEq, Repr

/-- The run outcome (R29). -/
inductive RunOutcome where
  | running
  | halted
  | error (record : ErrorRecord)
  deriving DecidableEq, Repr

/-- Memory: pairs of an address and a byte, addresses strictly rising, none holding what an unlisted address
reads as (R15, R16; log 7). -/
abbrev Memory := List Host.Cell

/-- R0..R7 (R17). -/
abbrev Registers := Vector Byte Config.numRegs

/-- The complete state of R33, and nothing else. -/
structure State where
  /-- `M` (R15). -/
  mem : Memory
  /-- `x[0..7]` (R17). -/
  regs : Registers
  /-- `SP`, separate from the register file (R21). -/
  sp : Byte
  /-- `PC` (R23). -/
  pc : Byte
  /-- `FL` (R26). -/
  fl : Byte
  /-- The halt flag (R28). -/
  halted : Bool
  /-- The run outcome (R29). -/
  outcome : RunOutcome
  /-- The output stream `Out`, oldest value first (R30). -/
  out : List Byte
  deriving DecidableEq, Repr

/-- Why there is no step. Both are stuck states, and both are the spec's own: from Halted or Error the machine has no step
(R82, R153). An instruction's own error is no Fault: it is a next state whose outcome is Error(record) (R148; log 1). -/
inductive Fault where
  /-- Raised by `step` on a machine whose outcome is Halted (R82, R153). Safe: nothing runs. -/
  | haltedMachine
  /-- Raised by `step` on a machine whose outcome is Error(record) (R82, R153); it hands the record on (R38).
  Safe: nothing runs. -/
  | erroredMachine (record : ErrorRecord)
  deriving DecidableEq, Repr

/-- What the model refuses. No step and no instruction refuses; the last two are answers to the host's `load`. -/
inductive Refusal where
  /-- Raised by an arm of `exec` that has no meaning yet. No arm is left so. Safe. -/
  | notModelled (mnemonic : String)
  /-- Raised by `Session.load` once `run` has been called (R34, R153). Safe: nothing is written. -/
  | loadAfterRun
  /-- Raised by `Session.load` on a value that is not a byte (R34, D20). Safe: nothing is written. -/
  | loadValueNotAByte (value : Int)
  deriving DecidableEq, Repr

/-- The machine at construction, before any `load` (R162): the one reset there is (R161). -/
def State.reset : State where
  mem := []
  regs := (Vector.replicate Config.numRegs 0).set Config.spSeedReg Config.spInit
  sp := Config.spInit
  pc := Config.pcInit
  fl := Config.flInit
  halted := false
  outcome := .running
  out := []

end Sys2Proof.Machine
end

