-- ==== Sys2Proof/Machine/Ops.lean ====
section
/-! DEFINITION. The shared operations: one byte of memory, the bounds-checked accesses of R43, the stack of R50, the
PC advance of R88, the fetch of R83 and R84, and the one way a step ends, raising or not (R10, R90, R148). -/

namespace Sys2Proof.Machine

/-! ### Memory -/

/-- What a cell that nothing has written holds (R16, R51). -/
def Memory.unlisted : Byte := 0

/-- `MemRead`: the byte at an address (R9, R51). -/
def Memory.read : Memory → Nat → Byte
  | [], _ => Memory.unlisted
  | (k, v) :: rest, addr => if k = addr then v else Memory.read rest addr

/-- A cell put before a memory, left out where it holds what an unlisted cell reads as. -/
def Memory.cons (addr : Nat) (v : Byte) (rest : Memory) : Memory :=
  if v = Memory.unlisted then rest else (addr, v) :: rest

/-- `MemWrite`: store a byte at an address (R9), keeping the canonical form. -/
def Memory.write : Memory → Nat → Byte → Memory
  | [], addr, v => Memory.cons addr v []
  | (k, x) :: rest, addr, v =>
    if addr < k then Memory.cons addr v ((k, x) :: rest)
    else if addr = k then Memory.cons addr v rest
    else (k, x) :: Memory.write rest addr v

/-- The canonical form: addresses strictly rising and inside the address space, no entry equal to what an unlisted
address reads as. -/
def Memory.wf : Memory → Bool
  | [] => true
  | (k, v) :: rest =>
    k < Config.memSize && v != Memory.unlisted && rest.all (fun c => k < c.1) && Memory.wf rest

/-- Bytes placed at consecutive addresses from `addr` on, as far as there are cells. -/
def Memory.place (m : Memory) (addr : Nat) : List Byte → Memory
  | [] => m
  | v :: vs => Memory.place (if addr < Config.memSize then m.write addr v else m) (addr + 1) vs

/-- An address outside 0..255 (R43). -/
def outOfRange (addr : Int) : Bool := addr < 0 || addr > 255

/-- `Read(addr)`: the bounds-checked read; no address is reduced modulo 256 (R43). -/
def readMem (m : Memory) (addr : Int) : Except ErrorCause Byte :=
  if outOfRange addr then .error (.addressOutOfRange .memory addr) else .ok (m.read addr.toNat)

/-- `Write(addr, v)`: the bounds-checked write (R43). -/
def writeMem (m : Memory) (addr : Int) (v : Byte) : Except ErrorCause Memory :=
  if outOfRange addr then .error (.addressOutOfRange .memory addr) else .ok (m.write addr.toNat v)

/-! ### Registers -/

/-- `x[i]` (R9). There is no hardwired register (R17). -/
def State.readReg (s : State) (i : Fin Config.numRegs) : Byte := s.regs[i]

/-- `x[i] <- v` (R9). -/
def State.writeReg (s : State) (i : Fin Config.numRegs) (v : Byte) : State :=
  { s with regs := s.regs.set i v }

/-! ### The stack -/

/-- The address a push stores to, SP - 1. At SP = 0 there is none: -1 does not wrap to 255 (R50). -/
def pushTarget (s : State) : Except ErrorCause Byte :=
  if s.sp = 0 then .error (.addressOutOfRange .memory (s.sp.toNat - 1)) else .ok (s.sp - 1)

/-- `Push(v)` (R50): decrement SP, then write at the new SP. -/
def push (v : Byte) (s : State) : Except ErrorCause State := do
  let target ← pushTarget s
  .ok { s with mem := s.mem.write target.toNat v, sp := target }

/-- `Pop()` (R50): read at SP, then increment SP. At SP = 255 there is none: 256 is no value of SP.
Gives the byte and the state after. -/
def pop (s : State) : Except ErrorCause (Byte × State) :=
  if s.sp = 255 then .error (.addressOutOfRange .memory (s.sp.toNat + 1))
  else .ok (s.mem.read s.sp.toNat, { s with sp := s.sp + 1 })

/-! ### The program counter -/

/-- The address `1 + n` bytes after `p`. It never wraps: above 255 it raises in the step that computes it (R23, R88). -/
def nextPc (p : Byte) (n : Nat) : Except ErrorCause Byte :=
  if p.toNat + 1 + n > 255 then .error (.addressOutOfRange .memory (p.toNat + 1 + n))
  else .ok (BitVec.ofNat 8 (p.toNat + 1 + n))

/-- The loop's auto-advance after a handler that does not own PC, from the opcode's address `p` over `n` operand
bytes (R88). -/
def autoAdvance (p : Byte) (n : Nat) (s : State) : Except ErrorCause State := do
  let next ← nextPc p n
  .ok { s with pc := next }

/-! ### How a step ends -/

/-- Raising an error: the outcome becomes Error(record) and nothing else changes (R91, R148). The record holds the
address and the byte of the opcode (R145). This is the machine's whole exception entry: there is no vector, no saved PC,
no handler and no return (R149, R150). -/
def raise (s : State) (cause : ErrorCause) : State :=
  { s with outcome := .error { cause := cause, pc := s.pc, opcode := s.mem.read s.pc.toNat } }

/-- The last line of the step: `if halted then outcome <- Halted` (R89, R90). -/
def endStep (s : State) : State :=
  if s.halted then { s with outcome := .halted } else s

/-- A step that began in `s` ends: all of its writes are committed together, or, if it raised, none of them (R10). -/
def finish (s : State) (result : Except ErrorCause State) : Host.Outcome State Fault Refusal :=
  match result with
  | .ok t => .next (endStep t)
  | .error cause => .next (raise s cause)

/-! ### Fetch -/

/-- The three bytes that a step reads. -/
structure Fetched where
  op : Byte
  a : Byte
  b : Byte
  deriving DecidableEq, Repr

/-- The opcode at PC, then the two candidate operands at PC + 1 and PC + 2, both bounds-checked, whatever the opcode
(R83, R84; `SPECULATIVE_READ_CHECKED` is true, decision D6 of the spec). -/
def fetch (s : State) : Except ErrorCause Fetched := do
  let a ← readMem s.mem (s.pc.toNat + 1)
  let b ← readMem s.mem (s.pc.toNat + 2)
  .ok { op := s.mem.read s.pc.toNat, a := a, b := b }

end Sys2Proof.Machine
end

