-- ==== Sys2Proof/Machine/Flags.lean ====
section
/-! DEFINITION. FL's bits and the one flag computation, that of COMPARE (R26, R111, R114). -/

namespace Sys2Proof.Machine

/-- FL with E alone set: bit 0 (R26; the layout is the spec's decision D2). -/
def flagE : Byte := 0x01

/-- FL with G alone set: bit 1 (R26). -/
def flagG : Byte := 0x02

/-- FL with L alone set: bit 2 (R26). -/
def flagL : Byte := 0x04

/-- The FL byte of a comparison, unsigned, exactly one of E, G and L (R111, R114; unsigned is the spec's decision D12). -/
def compareFlags (va vb : Byte) : Byte :=
  if va = vb then flagE else if va.toNat > vb.toNat then flagG else flagL

/-- Bit E of FL, the only one that an instruction reads (R26, R27). -/
def equalSet (fl : Byte) : Bool := fl.getLsbD 0

end Sys2Proof.Machine
end

