-- ==== Sys2Proof/Machine/Operands.lean ====
section
/-! DEFINITION. The two operand forms (R65): a register index and an 8-bit literal. -/

namespace Sys2Proof.Machine

/-- `check_reg(i)`: a register-index operand, used as it is; 8 or more raises, never masked (R9, R65, R143). -/
def checkReg (i : Byte) : Except ErrorCause (Fin Config.numRegs) :=
  if h : i.toNat < Config.numRegs then .ok ⟨i.toNat, h⟩
  else .error (.addressOutOfRange .register i.toNat)

/-- A literal operand, used unchanged (R65). -/
def literal (b : Byte) : Byte := b

end Sys2Proof.Machine
end

