-- ==== Sys2Proof/Machine/Alu.lean ====
section
/-! DEFINITION. The ALU contract and MUL, ADD and CMP (42_alu.md). -/

namespace Sys2Proof.Machine

/-- `(va + vb) mod 256` (R111, R113). -/
def addBytes (va vb : Byte) : Byte := BitVec.ofNat 8 ((va.toNat + vb.toNat) % 256)

/-- `(va * vb) mod 256`, the low 8 bits of the unsigned product (R111, R112). -/
def mulBytes (va vb : Byte) : Byte := BitVec.ofNat 8 ((va.toNat * vb.toNat) % 256)

/-- `ALU(op, a, b)`: check `a`, then `b`; read both before any write; write `x[a]` or FL, never both; an operation it
does not implement raises (R111, R146). -/
def alu (op : AluOp) (a b : Byte) (s : State) : Except ErrorCause State := do
  let ra ← checkReg a
  let rb ← checkReg b
  match op with
  | .add => .ok (s.writeReg ra (addBytes (s.readReg ra) (s.readReg rb)))
  | .mul => .ok (s.writeReg ra (mulBytes (s.readReg ra) (s.readReg rb)))
  | .compare => .ok { s with fl := compareFlags (s.readReg ra) (s.readReg rb) }
  | .other name => .error (.unsupportedAluOperation (.other name))

/-- MUL: `ALU(MUL, a, b)` (R112). -/
def execMul (a b : Byte) (s : State) : Host.Outcome State Fault Refusal :=
  finish s do
    let t ← alu .mul a b s
    autoAdvance s.pc 2 t

/-- ADD: `ALU(ADD, a, b)` (R113). -/
def execAdd (a b : Byte) (s : State) : Host.Outcome State Fault Refusal :=
  finish s do
    let t ← alu .add a b s
    autoAdvance s.pc 2 t

/-- CMP: `ALU(COMPARE, a, b)` (R114). -/
def execCmp (a b : Byte) (s : State) : Host.Outcome State Fault Refusal :=
  finish s do
    let t ← alu .compare a b s
    autoAdvance s.pc 2 t

end Sys2Proof.Machine
end

