-- ==== Sys2Proof/Machine/Control.lean ====
section
/-! DEFINITION. CALL, RET, JMP, JEQ and JNE (44_control_transfer.md). Their handlers own PC and set it on every path
that does not raise (R94). Where `p + 2` would pass 255, which no step reaches (R84), `nextPc` raises
(DESIGN CHOICE, log 3, safe). -/

namespace Sys2Proof.Machine

/-- CALL: push the return address `p + 2`, jump to `x[a]`. The register is checked first, then SP (R131). -/
def execCall (a : Byte) (s : State) : Host.Outcome State Fault Refusal :=
  finish s do
    let ra ← checkReg a
    let _ ← pushTarget s
    let ret ← nextPc s.pc 1
    let t ← push ret s
    .ok { t with pc := s.readReg ra }

/-- RET: pop into PC (R132). -/
def execRet (s : State) : Host.Outcome State Fault Refusal :=
  finish s do
    let (v, t) ← pop s
    .ok { t with pc := v }

/-- JMP: `pc <- x[a]` (R133). -/
def execJmp (a : Byte) (s : State) : Host.Outcome State Fault Refusal :=
  finish s do
    let ra ← checkReg a
    .ok { s with pc := s.readReg ra }

/-- The shared body of the two conditional jumps: the register is checked on both paths; taken, `pc <- x[a]`;
not taken, the handler itself advances by the width (R94, R134, R135). -/
def branch (taken : Bool) (a : Byte) (s : State) : Except ErrorCause State := do
  let ra ← checkReg a
  if taken then .ok { s with pc := s.readReg ra } else autoAdvance s.pc 1 s

/-- JEQ: taken when E is 1 (R134). -/
def execJeq (a : Byte) (s : State) : Host.Outcome State Fault Refusal :=
  finish s (branch (equalSet s.fl) a s)

/-- JNE: taken when E is 0 (R135). -/
def execJne (a : Byte) (s : State) : Host.Outcome State Fault Refusal :=
  finish s (branch (!equalSet s.fl) a s)

end Sys2Proof.Machine
end

