-- ==== Sys2Proof/Machine/Stack.lean ====
section
/-! DEFINITION. PUSH and POP (43_stack.md). -/

namespace Sys2Proof.Machine

/-- PUSH: push `x[a]`; the register is checked before SP (R121). -/
def execPush (a : Byte) (s : State) : Host.Outcome State Fault Refusal :=
  finish s do
    let ra ← checkReg a
    let t ← push (s.readReg ra) s
    autoAdvance s.pc 1 t

/-- POP: pop into `x[a]`; the register is checked before SP; the cell is not cleared (R122). -/
def execPop (a : Byte) (s : State) : Host.Outcome State Fault Refusal :=
  finish s do
    let ra ← checkReg a
    let (v, t) ← pop s
    autoAdvance s.pc 1 (t.writeReg ra v)

end Sys2Proof.Machine
end

