-- ==== Sys2Proof/Machine/System.lean ====
section
/-! DEFINITION. HALT, LDI and PRN (41_system_and_data.md). -/

namespace Sys2Proof.Machine

/-- HALT: set the halt flag; the loop still advances PC past it, and the outcome becomes Halted (R90, R101). -/
def execHalt (s : State) : Host.Outcome State Fault Refusal :=
  finish s (autoAdvance s.pc 0 { s with halted := true })

/-- LDI: `x[a] <- b` (R102). -/
def execLdi (a b : Byte) (s : State) : Host.Outcome State Fault Refusal :=
  finish s do
    let ra ← checkReg a
    autoAdvance s.pc 2 (s.writeReg ra (literal b))

/-- PRN: append `x[a]` to Out (R103). -/
def execPrn (a : Byte) (s : State) : Host.Outcome State Fault Refusal :=
  finish s do
    let ra ← checkReg a
    autoAdvance s.pc 1 { s with out := s.out ++ [s.readReg ra] }

end Sys2Proof.Machine
end

