-- ==== Sys2Proof/Machine/Loop.lean ====
section
/-! DEFINITION. The body of the fetch-decode-execute loop: one step (R89). -/

namespace Sys2Proof.Machine

/-- `Step()` (R89). It is enabled only while the outcome is Running: from Halted and from Error there is no step
(R82, R153). Fetch and candidate reads, then the dispatch, then the instruction, in the order of R147. -/
def loopStep (s : State) : Host.Outcome State Fault Refusal :=
  match s.outcome with
  | .halted => .fault .haltedMachine
  | .error record => .fault (.erroredMachine record)
  | .running =>
    match fetch s with
    | .error cause => .next (raise s cause)
    | .ok f =>
      match dispatch f.op f.a f.b with
      | none => .next (raise s .decodeError)
      | some i => exec i s

end Sys2Proof.Machine
end

