-- ==== Sys2Proof/Machine/Step.lean ====
section
/-! DEFINITION. The machine's step, and an instruction placed where it fetches next. -/

namespace Sys2Proof.Machine

/-- One step of the machine (R89). -/
def step (s : State) : Host.Outcome State Fault Refusal := loopStep s

/-- The state with an instruction, as spec/opcode_table.json numbers its bits, stored where `step` fetches next: its bytes
at PC, PC + 1 and PC + 2 (R74). Nothing else changes. It stands for the loading of a program from outside
(R165, R166; log 8). -/
def State.withFetchWord (s : State) (nbits w : Nat) : State :=
  { s with mem := s.mem.place s.pc.toNat (tableWordBytes nbits w) }

end Sys2Proof.Machine
end

