-- ==== Sys2Proof/Machine/Errors.lean ====
section
/-! DEFINITION. The fields of an error that its cause determines (R141, R145). -/

namespace Sys2Proof.Machine

/-- The error kinds (R141). -/
inductive ErrorKind where
  | addressOutOfRange
  | decodeError
  | unsupportedAluOperation
  deriving DecidableEq, Repr

/-- The code of a kind: 1, 2 or 3 (R141; the numbers are the spec's decision D13). -/
def ErrorKind.code : ErrorKind → Nat
  | .addressOutOfRange => 1
  | .decodeError => 2
  | .unsupportedAluOperation => 3

/-! ### What a cause determines

A step's record holds its cause beside `pc` and `opcode`. The error of the host's `load` is the cause alone, so that it
has these fields and no other (DESIGN CHOICE, log 16, safe). -/

/-- The kind of an error with this cause (R141). -/
def ErrorCause.kind : ErrorCause → ErrorKind
  | .addressOutOfRange _ _ => .addressOutOfRange
  | .decodeError => .decodeError
  | .unsupportedAluOperation _ => .unsupportedAluOperation

/-- The field `space`, AddressOutOfRange only (R145). -/
def ErrorCause.space : ErrorCause → Option Space
  | .addressOutOfRange space _ => some space
  | .decodeError => none
  | .unsupportedAluOperation _ => none

/-- The field `value`, AddressOutOfRange only (R145). -/
def ErrorCause.value : ErrorCause → Option Int
  | .addressOutOfRange _ value => some value
  | .decodeError => none
  | .unsupportedAluOperation _ => none

/-- The field `alu_op`, UnsupportedAluOperation only (R145). -/
def ErrorCause.aluOp : ErrorCause → Option AluOp
  | .addressOutOfRange _ _ => none
  | .decodeError => none
  | .unsupportedAluOperation op => some op

/-! ### The fields of a record (R145) -/

/-- The field `kind`. -/
def ErrorRecord.kind (r : ErrorRecord) : ErrorKind := r.cause.kind

/-- The field `code`. -/
def ErrorRecord.code (r : ErrorRecord) : Nat := r.kind.code

/-- The field `space`. -/
def ErrorRecord.space (r : ErrorRecord) : Option Space := r.cause.space

/-- The field `value`. -/
def ErrorRecord.value (r : ErrorRecord) : Option Int := r.cause.value

/-- The field `alu_op`. -/
def ErrorRecord.aluOp (r : ErrorRecord) : Option AluOp := r.cause.aluOp

end Sys2Proof.Machine
end

