-- ==== Sys2Proof/Machine/Output.lean ====
section
/-! DEFINITION. The output port: the text of Out (R37, R174). -/

namespace Sys2Proof.Machine

/-- The ASCII byte of a decimal digit. -/
def asciiDigit (d : Nat) : Byte := BitVec.ofNat 8 (0x30 + d)

/-- The line terminator, `\n` (R37; the spec's decision D16). -/
def lineTerminator : Byte := 0x0A

/-- A byte's unsigned decimal representation in ASCII, no leading zeros, `0` for zero (R37). -/
def decimalText (v : Byte) : List Byte :=
  let n := v.toNat
  if n < 10 then [asciiDigit n]
  else if n < 100 then [asciiDigit (n / 10), asciiDigit (n % 10)]
  else [asciiDigit (n / 100), asciiDigit (n / 10 % 10), asciiDigit (n % 10)]

/-- One PRN's line: the decimal representation and one line terminator (R37). -/
def outputLine (v : Byte) : List Byte := decimalText v ++ [lineTerminator]

/-- All that the output port has written so far: the lines of Out in execution order, unbuffered (R30, R37, R174). -/
def State.outputText (s : State) : List Byte := s.out.flatMap outputLine

end Sys2Proof.Machine
end

