-- ==== Sys2Proof/Machine/Session.lean ====
section
/-! DEFINITION. The host's operations on the machine: construct, `load`, `run` and the read accessor
(10_state.md section 7, 70_reset_and_hazards.md section 2). -/

namespace Sys2Proof.Machine

/-- At most `k` steps of the run loop: it stops as soon as the outcome is not Running (R81). -/
def State.runFor : Nat → State → State
  | 0, s => s
  | k + 1, s =>
    match step s with
    | .next t => State.runFor k t
    | .fault _ => s
    | .refused _ => s

/-- The machine and whether the host has called `run` on it, which is not part of the machine's state
(R33, R34, R153; log 11). -/
structure Session where
  machine : State
  runCalled : Bool
  deriving DecidableEq, Repr

/-- Boot, first step: construct the machine (R161, R165). -/
def Session.construct : Session := { machine := State.reset, runCalled := false }

/-- `load(address, byte)` (R34, D20): `M[address] <- byte`. It is refused once `run` has been called (R153) and for a value
that is no byte; an address outside 0..255 is AddressOutOfRange, reported to the host, and nothing is written. The order
of the three checks is the model's (DESIGN CHOICE, log 11, safe). So is the form of the host's error: the bare cause,
which has R145's kind, code, space and value, and no pc or opcode, since no step raised it (DESIGN CHOICE, log 16, safe). -/
def Session.load (host : Session) (addr value : Int) : Host.Outcome Session ErrorCause Refusal :=
  if host.runCalled then .refused .loadAfterRun
  else if outOfRange value then .refused (.loadValueNotAByte value)
  else
    match writeMem host.machine.mem addr (BitVec.ofInt 8 value) with
    | .error cause => .fault cause
    | .ok mem => .next { host with machine := { host.machine with mem := mem } }

/-- The loader's contract: data byte `k` of the program goes to address `k`, in file order (R166). `addr` is the
address of the first of `bytes`. -/
def Session.loadFrom (host : Session) (addr : Nat) : List Byte → Host.Outcome Session ErrorCause Refusal
  | [] => .next host
  | v :: vs =>
    match host.load addr v.toNat with
    | .next host' => host'.loadFrom (addr + 1) vs
    | .fault cause => .fault cause
    | .refused r => .refused r

/-- Boot, second step: load a whole program from address 0 on (R165, R166). -/
def Session.loadProgram (host : Session) (program : List Byte) : Host.Outcome Session ErrorCause Refusal :=
  host.loadFrom 0 program

/-- `run()` looked at after at most `k` steps: the outcome it returns and the session after it, or none while the run has
not ended (R35, R81). A run that never ends answers none for every `k` (R93; log 12). On a terminal machine it
returns at once (R153). -/
def Session.run (host : Session) (k : Nat) : Option (RunOutcome × Session) :=
  let t := host.machine.runFor k
  if t.outcome = .running then none else some (t.outcome, { machine := t, runCalled := true })

/-- The read accessor: every part of the state, and nothing changes (R36). -/
def Session.inspect (host : Session) : State := host.machine

end Sys2Proof.Machine
end

