-- ==== Sys2Proof/Safety.lean ====
section
/-! DEFINITION. What claims call a sound state, and the ways an error can arise. -/

namespace Sys2Proof.Machine

open Sys2Proof

/-- The machine may take a step (R29, R82). -/
abbrev State.isRunning (s : State) : Prop := s.outcome = .running

/-- The outcome is no error: the premise that claims about a step's effect take (93_implementation_defined.md I6). -/
def State.noError (s : State) : Prop := ∀ record, s.outcome ≠ .error record

/-- The instruction in the three bytes at PC, none where no handler is registered for the opcode (R85). Where PC is 254 or 255
a step raises before it looks (R84). -/
def State.nextInstr (s : State) : Option Instr :=
  dispatch (s.mem.read s.pc.toNat) (s.mem.read (s.pc.toNat + 1)) (s.mem.read (s.pc.toNat + 2))

/-- The register operands whose values an instruction reads (R20). LDI and POP only write theirs. -/
def readsRegs : Instr → List Byte
  | .halt => []
  | .ldi _ _ => []
  | .prn a => [a]
  | .mul a b => [a, b]
  | .add a b => [a, b]
  | .cmp a b => [a, b]
  | .push a => [a]
  | .pop _ => []
  | .call a => [a]
  | .ret => []
  | .jmp a => [a]
  | .jeq a => [a]
  | .jne a => [a]

/-- The halt flag and the outcome agree (R28, R29): the flag is set exactly when the outcome is Halted. -/
def State.haltAgrees (s : State) : Prop := s.halted = true ↔ s.outcome = .halted

/-- FL is 0 before any comparison, then exactly one of E, G and L; bits 7:3 are 0 (R26, R27). -/
def State.flagsLegal (s : State) : Prop := s.fl = 0x00 ∨ s.fl = 0x01 ∨ s.fl = 0x02 ∨ s.fl = 0x04

/-- The causes a step can record: R142's step cases, R143, R144. UnsupportedAluOperation is not among them (R146). -/
def ErrorCause.fromStep : ErrorCause → Prop
  | .addressOutOfRange .memory value => value = -1 ∨ value = 256
  | .addressOutOfRange .register value => 8 ≤ value ∧ value ≤ 255
  | .decodeError => True
  | .unsupportedAluOperation _ => False

/-- An error outcome's record names the instruction at PC, which is unchanged, and a cause a step can have (R145). -/
def State.errorPrecise (s : State) : Prop :=
  ∀ record, s.outcome = .error record →
    record.pc = s.pc ∧ record.opcode = s.mem.read s.pc.toNat ∧ record.cause.fromStep

/-- The invariant of the machine: memory in its canonical form, the halt flag and the outcome in agreement, FL legal, and an
error precise. -/
structure State.Inv (s : State) : Prop where
  memory : s.mem.wf = true
  halt : s.haltAgrees
  flags : s.flagsLegal
  error : s.errorPrecise

end Sys2Proof.Machine
end

