-- ==== Sys2Proof/Certificates/Slice0/Obligations.lean ====
section
/-! DEFINITION. The statements for the provers. Each says in its docstring which rule of spec/ it formalises or rests on;
"D<n>" is a decision that the spec marks as its own (92_eei_decisions.md). -/

open Sys2Proof Sys2Proof.Machine

/-! ### Encoding and decoding -/

/-- Decoding an encoded instruction gives it back, and the bytes after it, for every instruction with every operand byte
(R61, R74, R78; the opcode values are D1). No well-formedness is needed: every operand byte is accepted (R71). -/
def Obligations.DecodeInvertsEncode : Prop :=
  ∀ (i : Instr) (rest : List Byte), decode (encode i ++ rest) = .ok (i, rest)

/-- Every byte sequence that decodes is the encoding of the instruction it decodes to, followed by the bytes given back:
each word has one meaning (R66, R69, R78; D1). -/
def Obligations.EncodeInvertsDecode : Prop :=
  ∀ (bytes : List Byte) (i : Instr) (rest : List Byte),
    decode bytes = .ok (i, rest) → bytes = encode i ++ rest

/-- The decided opcode map obeys R63's constraints, and decoding inverts encoding under every map that obeys them: nothing in
the encoding rests on the decided values (R6, R63, R67; D1). -/
def Obligations.EveryLegalOpcodeMapRoundTrips : Prop :=
  opcodeMap.wellFormed = true ∧
    ∀ map : OpcodeMap, map.wellFormed = true →
      ∀ (i : Instr) (rest : List Byte), decodeWith map (encodeWith map i ++ rest) = .ok (i, rest)

/-- The static decoder recovers a whole program from its bytes and stops at the first byte that is no registered opcode
(R73, marked derived by the spec; D1). -/
def Obligations.DisassemblyRecoversProgram : Prop :=
  ∀ (program : List Instr) (op : Byte) (rest : List Byte), (∀ m, opcodeMap m ≠ op) →
    disassemble (program.flatMap encode) = (program, []) ∧
      disassemble (program.flatMap encode ++ op :: rest) = (program, op :: rest)

/-- R61: an instruction is one opcode byte and `n` operand bytes, `n` being the opcode's bits 7:6, 0, 1 or 2; its width is
`1 + n`; and a step that finds the bytes at consecutive increasing addresses from PC on runs it. -/
def Obligations.InstructionIsOpcodeAndCountedOperands : Prop :=
  ∀ i : Instr, ∃ op : Byte, encode i = op :: i.operands ∧ i.operands.length = operandCountBits op ∧
    operandCountBits op ≤ 2 ∧ i.width = 1 + operandCountBits op ∧
    ∀ s : State, s.isRunning → s.pc.toNat ≤ 253 →
      (∀ k (h : k < (encode i).length), s.mem.read (s.pc.toNat + k) = (encode i)[k]) → step s = exec i s

/-- R86: for a registered opcode the operand count is its bits 7:6, which is 0, 1 or 2, the PC ownership is its bit 4, and both
equal the attributes that the dispatch table stores. -/
def Obligations.DecoderAttributesAreOpcodeBits : Prop :=
  ∀ (op : Byte) (m : Mnemonic), lookup op = some m →
    (op >>> 6).toNat = m.operandCount ∧ (op >>> 6).toNat ≤ 2 ∧ (op.toNat / 16 % 2 = 1 ↔ m.pcOwned = true)

/-- Words written out from the encodings of R64 and R66 decode to the instructions they stand for, one of each format and
family (D1). A sanity statement. -/
def Obligations.OpcodeWordsDecode : Prop :=
  decodeTableWord 8 0x01 = some .halt ∧ decodeTableWord 24 0x080082 = some (.ldi 0x00 0x08) ∧
    decodeTableWord 16 0x0547 = some (.prn 0x05) ∧ decodeTableWord 24 0x0100A2 = some (.mul 0x00 0x01) ∧
    decodeTableWord 16 0x0246 = some (.pop 0x02) ∧ decodeTableWord 8 0x11 = some .ret ∧
    decodeTableWord 16 0x0356 = some (.jne 0x03) ∧ decodeTableWord 8 0x00 = none ∧ decodeTableWord 8 0xC2 = none

/-! ### The step -/

/-- When the three bytes at PC decode to an instruction, a step of the running machine is `exec` of that instruction at that
state: the advance of PC is inside `exec`, and the step adds nothing (R83 to R89). -/
def Obligations.StepRunsDecodedInstruction : Prop :=
  ∀ (s : State) (i : Instr) (rest : List Byte), s.isRunning → s.pc.toNat ≤ 253 →
    decode [s.mem.read s.pc.toNat, s.mem.read (s.pc.toNat + 1), s.mem.read (s.pc.toNat + 2)] = .ok (i, rest) →
    step s = exec i s

/-- A step is enabled exactly while the outcome is Running, and from Halted or Error the machine has no step (R29, R82, R89, R153;
D17). That a machine without a step answers a fault under the name of its outcome, an error's with its record, and that no step is
ever refused, are the model's forms (log entry 1, DEDUCED). -/
def Obligations.StepEnabledExactlyWhileRunning : Prop :=
  ∀ s : State,
    ((∃ t, step s = .next t) ↔ s.outcome = .running) ∧
    (s.outcome = .halted → step s = .fault .haltedMachine) ∧
    (∀ record, s.outcome = .error record → step s = .fault (.erroredMachine record)) ∧
    ∀ r, step s ≠ .refused r

/-- At PC = 255 the candidate read at PC + 1, and at PC = 254 the one at PC + 2, raises AddressOutOfRange(memory, 256), whatever
bytes stand there (R84, R147; D6). -/
def Obligations.CandidateReadsRaiseAtTopOfMemory : Prop :=
  ∀ s : State, s.isRunning → 254 ≤ s.pc.toNat →
    step s = .next { s with outcome := .error ⟨.addressOutOfRange .memory 256, s.pc, s.mem.read s.pc.toNat⟩ }

/-- R85: an opcode that the dispatch table has no entry for raises DecodeError with the PC and the opcode, and nothing else in the
state changes. -/
def Obligations.UnregisteredOpcodeRaisesDecodeError : Prop :=
  ∀ s : State, s.isRunning → s.pc.toNat ≤ 253 → (∀ m, opcodeMap m ≠ s.mem.read s.pc.toNat) →
    step s = .next { s with outcome := .error ⟨.decodeError, s.pc, s.mem.read s.pc.toNat⟩ }

/-- A step that raises changes the outcome alone, and its record names the opcode's address and byte (R91, R145, R148; D9, D13). -/
def Obligations.RaisingStepChangesOnlyTheOutcome : Prop :=
  ∀ (s t : State) (record : ErrorRecord), step s = .next t → t.outcome = .error record →
    t = { s with outcome := .error record } ∧ record.pc = s.pc ∧ record.opcode = s.mem.read s.pc.toNat

/-- A step raises only in the cases of R142's step rows, R143 and R144, and then records the value that the case names
(D6 to D8, D10 to D13). That it does raise in each of them is said by CandidateReadsRaiseAtTopOfMemory,
UnregisteredOpcodeRaisesDecodeError, RegisterOperandsAreCheckedFirst, StackBoundsRaise and
AdvancePastTopRaisesAndCommitsNothing. -/
def Obligations.StepRaisesOnlyTheListedCauses : Prop :=
  ∀ (s t : State) (record : ErrorRecord), step s = .next t → t.outcome = .error record →
    (record.cause = .addressOutOfRange .memory 256 ∧ 254 ≤ s.pc.toNat) ∨
    (record.cause = .decodeError ∧ s.nextInstr = none) ∨
    ∃ i, s.nextInstr = some i ∧
      ((∃ x ∈ i.regOperands, 8 ≤ x.toNat ∧ record.cause = .addressOutOfRange .register x.toNat) ∨
       (record.cause = .addressOutOfRange .memory (-1) ∧ s.sp = 0 ∧ ∃ a, i = .push a ∨ i = .call a) ∨
       (record.cause = .addressOutOfRange .memory 256 ∧ s.sp = 255 ∧ (i = .ret ∨ ∃ a, i = .pop a)) ∨
       (record.cause = .addressOutOfRange .memory 256 ∧ s.pc.toNat = 253 ∧
          ∃ a b, i = .ldi a b ∨ i = .mul a b ∨ i = .add a b ∨ i = .cmp a b))

/-- Every instruction checks the register operands it names, in operand order, before any other check or effect: the first one of
8 or more is what the error reports, whatever SP and PC are (R143, R147; D10, D11, D14). -/
def Obligations.RegisterOperandsAreCheckedFirst : Prop :=
  ∀ (i : Instr) (s : State) (x : Byte), i.regOperands.find? (fun r => 8 ≤ r.toNat) = some x →
    exec i s = .next { s with outcome := .error ⟨.addressOutOfRange .register x.toNat, s.pc, s.mem.read s.pc.toNat⟩ }

/-- With its register operand valid, a push at SP = 0 raises with -1 and a pop at SP = 255 raises with 256: SP never wraps, and
nothing is written (R21, R50, R121, R122, R131, R132; D8). -/
def Obligations.StackBoundsRaise : Prop :=
  ∀ (i : Instr) (s : State), i.wellFormed = true →
    (i.mnemonic = .push ∨ i.mnemonic = .call → s.sp.toNat = 0 →
      exec i s = .next { s with outcome := .error ⟨.addressOutOfRange .memory (-1), s.pc, s.mem.read s.pc.toNat⟩ }) ∧
    (i.mnemonic = .pop ∨ i.mnemonic = .ret → s.sp.toNat = 255 →
      exec i s = .next { s with outcome := .error ⟨.addressOutOfRange .memory 256, s.pc, s.mem.read s.pc.toNat⟩ })

/-- The auto-advance of a handler that does not own PC raises when it would pass 255, with the value it computes, and none of the
handler's writes is committed: registers, FL, Out and the halt flag keep their values (R88, R91; D7, D9). PUSH and POP get there
only with SP off its bound. -/
def Obligations.AdvancePastTopRaisesAndCommitsNothing : Prop :=
  ∀ (i : Instr) (s : State), i.wellFormed = true → i.mnemonic.pcOwned = false →
    (i.mnemonic = .push → s.sp.toNat ≠ 0) → (i.mnemonic = .pop → s.sp.toNat ≠ 255) →
    255 < s.pc.toNat + i.width →
    exec i s = .next { s with outcome := .error ⟨.addressOutOfRange .memory (s.pc.toNat + i.width : Nat),
      s.pc, s.mem.read s.pc.toNat⟩ }

/-! ### What each instruction does, for every state and all operands it completes on

Each of these gives the whole next state, so each is the instruction's result, its frame and its completion. The outcome afterwards
is R90's last line of the step: Halted exactly when the halt flag is set. -/

/-- HALT sets the halt flag, advances past itself and ends the run as Halted (R90, R101). -/
def Obligations.HaltStopsTheMachine : Prop :=
  ∀ s : State, s.pc.toNat + 1 ≤ 255 →
    exec .halt s = .next { s with halted := true, pc := s.pc + 1, outcome := .halted }

/-- LDI writes its literal into register `a` (R102). R7 is a register like the others and SP does not move (R19). -/
def Obligations.LdiWritesTheLiteral : Prop :=
  ∀ (a b : Byte) (s : State) (_ : a.toNat < 8), s.pc.toNat + 3 ≤ 255 →
    exec (.ldi a b) s = .next { s with
      regs := s.regs.set a.toNat b, pc := s.pc + 3, outcome := if s.halted then .halted else s.outcome }

/-- PRN appends register `a`'s value to Out, and the output port's text grows by that value's line at once
(R37, R103, R174; the terminator is D16). -/
def Obligations.PrnAppendsToTheOutput : Prop :=
  ∀ (a : Byte) (s : State) (_ : a.toNat < 8), s.pc.toNat + 2 ≤ 255 →
    ∃ t, exec (.prn a) s = .next t ∧
      t = { s with out := s.out ++ [s.regs[a.toNat]], pc := s.pc + 2,
                   outcome := if s.halted then .halted else s.outcome } ∧
      t.outputText = s.outputText ++ decimalText s.regs[a.toNat] ++ [0x0A]

/-- MUL writes the product of registers `a` and `b` modulo 256 into `a`, both read before the write, and leaves FL alone
(R111, R112). -/
def Obligations.MulWritesTheProductModulo256 : Prop :=
  ∀ (a b : Byte) (s : State) (_ : a.toNat < 8) (_ : b.toNat < 8), s.pc.toNat + 3 ≤ 255 →
    exec (.mul a b) s = .next { s with
      regs := s.regs.set a.toNat (BitVec.ofNat 8 (s.regs[a.toNat].toNat * s.regs[b.toNat].toNat % 256)),
      pc := s.pc + 3, outcome := if s.halted then .halted else s.outcome }

/-- ADD writes the sum of registers `a` and `b` modulo 256 into `a`, both read before the write, and leaves FL alone
(R111, R113). -/
def Obligations.AddWritesTheSumModulo256 : Prop :=
  ∀ (a b : Byte) (s : State) (_ : a.toNat < 8) (_ : b.toNat < 8), s.pc.toNat + 3 ≤ 255 →
    exec (.add a b) s = .next { s with
      regs := s.regs.set a.toNat (BitVec.ofNat 8 ((s.regs[a.toNat].toNat + s.regs[b.toNat].toNat) % 256)),
      pc := s.pc + 3, outcome := if s.halted then .halted else s.outcome }

/-- CMP replaces FL by E (0x01), G (0x02) or L (0x04), comparing the registers as unsigned bytes
(R26, R27, R111, R114; D2, D12). -/
def Obligations.CmpReplacesFlags : Prop :=
  ∀ (a b : Byte) (s : State) (_ : a.toNat < 8) (_ : b.toNat < 8), s.pc.toNat + 3 ≤ 255 →
    exec (.cmp a b) s = .next { s with
      fl := if s.regs[a.toNat].toNat = s.regs[b.toNat].toNat then 0x01
            else if s.regs[a.toNat].toNat > s.regs[b.toNat].toNat then 0x02 else 0x04,
      pc := s.pc + 3, outcome := if s.halted then .halted else s.outcome }

/-- PUSH stores register `a` at SP - 1 and moves SP there (R50, R121). -/
def Obligations.PushStoresBelowSp : Prop :=
  ∀ (a : Byte) (s : State) (_ : a.toNat < 8), s.sp.toNat ≠ 0 → s.pc.toNat + 2 ≤ 255 →
    exec (.push a) s = .next { s with
      mem := s.mem.write (s.sp.toNat - 1) s.regs[a.toNat], sp := s.sp - 1, pc := s.pc + 2,
      outcome := if s.halted then .halted else s.outcome }

/-- POP reads the cell at SP into register `a` and moves SP up; the cell keeps its byte, and popping above the initial SP is not
detected (R50, R122; D18). -/
def Obligations.PopLoadsFromSp : Prop :=
  ∀ (a : Byte) (s : State) (_ : a.toNat < 8), s.sp.toNat ≠ 255 → s.pc.toNat + 2 ≤ 255 →
    exec (.pop a) s = .next { s with
      regs := s.regs.set a.toNat (s.mem.read s.sp.toNat), sp := s.sp + 1, pc := s.pc + 2,
      outcome := if s.halted then .halted else s.outcome }

/-- CALL pushes the plain return address, PC + 2, and jumps to register `a`'s value (R131). -/
def Obligations.CallPushesReturnAddress : Prop :=
  ∀ (a : Byte) (s : State) (_ : a.toNat < 8), s.sp.toNat ≠ 0 → s.pc.toNat + 2 ≤ 255 →
    exec (.call a) s = .next { s with
      mem := s.mem.write (s.sp.toNat - 1) (s.pc + 2), sp := s.sp - 1, pc := s.regs[a.toNat],
      outcome := if s.halted then .halted else s.outcome }

/-- RET pops the byte at SP into PC (R132; D18). -/
def Obligations.RetPopsIntoPc : Prop :=
  ∀ s : State, s.sp.toNat ≠ 255 →
    exec .ret s = .next { s with
      sp := s.sp + 1, pc := s.mem.read s.sp.toNat, outcome := if s.halted then .halted else s.outcome }

/-- JMP sets PC to register `a`'s value; any target 0..255 is accepted (R133). -/
def Obligations.JmpSetsPc : Prop :=
  ∀ (a : Byte) (s : State) (_ : a.toNat < 8),
    exec (.jmp a) s = .next { s with
      pc := s.regs[a.toNat], outcome := if s.halted then .halted else s.outcome }

/-- JEQ sets PC to register `a`'s value when bit 0 of FL is 1, and to PC + 2 when it is 0; the other bits of FL are ignored
(R134; D2). -/
def Obligations.JeqBranchesOnE : Prop :=
  ∀ (a : Byte) (s : State) (_ : a.toNat < 8), s.pc.toNat + 2 ≤ 255 →
    exec (.jeq a) s = .next { s with
      pc := if s.fl.toNat % 2 = 1 then s.regs[a.toNat] else s.pc + 2,
      outcome := if s.halted then .halted else s.outcome }

/-- JNE sets PC to register `a`'s value when bit 0 of FL is 0, and to PC + 2 when it is 1: the complement of JEQ (R135; D2). -/
def Obligations.JneBranchesOnNotE : Prop :=
  ∀ (a : Byte) (s : State) (_ : a.toNat < 8), s.pc.toNat + 2 ≤ 255 →
    exec (.jne a) s = .next { s with
      pc := if s.fl.toNat % 2 = 0 then s.regs[a.toNat] else s.pc + 2,
      outcome := if s.halted then .halted else s.outcome }

/-! ### Frames and whole-machine rules -/

/-- No instruction but PUSH and CALL stores to memory, whether it completes or raises: every byte reads as before (R44). -/
def Obligations.OtherInstructionsStoreNothing : Prop :=
  ∀ (i : Instr) (s t : State), i.mnemonic ≠ .push → i.mnemonic ≠ .call → exec i s = .next t →
    ∀ addr, t.mem.read addr = s.mem.read addr

/-- PUSH and CALL store one byte, at the address that `pushTarget` computes, SP - 1: that byte reads as the value pushed, and every
other byte reads as before. Where `pushTarget` gives no address (SP = 0), or the instruction raises, every byte reads as before
(R44, R50, R121, R131; D8, D9). The memory is in its canonical form, as every reachable one is. -/
def Obligations.PushAndCallStoreOnlyAtPushTarget : Prop :=
  ∀ (i : Instr) (a : Byte) (s t : State), (i = .push a ∨ i = .call a) → s.mem.wf = true → exec i s = .next t →
    (∀ target, pushTarget s = .ok target → target.toNat + 1 = s.sp.toNat ∧
      ∀ addr, addr ≠ target.toNat → t.mem.read addr = s.mem.read addr) ∧
    (∀ target, pushTarget s = .ok target → s.noError → t.noError → ∃ _ : a.toNat < 8,
      (i = .push a → t.mem.read target.toNat = s.regs[a.toNat]) ∧
      (i = .call a → (t.mem.read target.toNat).toNat = s.pc.toNat + 2)) ∧
    (∀ cause, pushTarget s = .error cause → ∀ addr, t.mem.read addr = s.mem.read addr) ∧
    (s.noError → ¬t.noError → ∀ addr, t.mem.read addr = s.mem.read addr)

/-- A general register changes only as the `operand_a` of LDI, MUL, ADD or POP; and an instruction's result does not depend on
a register that it does not name as a source (PRN, PUSH, CALL, JMP, JEQ and JNE read `x[a]`; MUL, ADD and CMP read `x[a]` and `x[b]`;
the others read none): changing such a register before the instruction changes that register alone after it, or nothing where the
instruction overwrites it (R20). -/
def Obligations.RegistersAreAccessedOnlyAsOperands : Prop :=
  (∀ (i : Instr) (s t : State) (k : Fin 8), exec i s = .next t → t.regs[k] ≠ s.regs[k] →
    ∃ a : Byte, a.toNat = k ∧ (i = .pop a ∨ ∃ b, i = .ldi a b ∨ i = .mul a b ∨ i = .add a b)) ∧
  (∀ (i : Instr) (s t : State) (k : Fin 8) (v : Byte), (∀ r ∈ readsRegs i, r.toNat ≠ k) → exec i s = .next t →
    exec i { s with regs := s.regs.set k v } = .next t ∨
    (t.regs[k] = s.regs[k] ∧
      exec i { s with regs := s.regs.set k v } = .next { t with regs := t.regs.set k v }))

/-- FL changes only by CMP, and after a CMP that does not raise exactly one of E, G and L is set and bits 7:3 are 0, whatever FL was
before (R26, R27, R114; D2). -/
def Obligations.FlagsChangeOnlyByCmp : Prop :=
  ∀ (i : Instr) (s t : State), exec i s = .next t →
    (i.mnemonic ≠ .cmp → t.fl = s.fl) ∧
    (i.mnemonic = .cmp → s.noError → t.noError → t.fl = 0x01 ∨ t.fl = 0x02 ∨ t.fl = 0x04)

/-- SP changes only by PUSH and CALL, which lower it by one, and by POP and RET, which raise it by one, and it never wraps; writing
R7 does not move it (R19, R21; D8). -/
def Obligations.SpMovesOnlyByStackInstructions : Prop :=
  ∀ (i : Instr) (s t : State), exec i s = .next t → t.sp ≠ s.sp →
    ((i.mnemonic = .push ∨ i.mnemonic = .call) ∧ t.sp.toNat + 1 = s.sp.toNat) ∨
    ((i.mnemonic = .pop ∨ i.mnemonic = .ret) ∧ t.sp.toNat = s.sp.toNat + 1)

/-- R30: Out is empty at construction, only PRN appends to it, and each PRN executed appends exactly its register's value. -/
def Obligations.OutputHasOneValuePerPrn : Prop :=
  State.reset.out = [] ∧
  (∀ (i : Instr) (s t : State), exec i s = .next t → i.mnemonic ≠ .prn → t.out = s.out) ∧
  (∀ (a : Byte) (s t : State), exec (.prn a) s = .next t → s.noError →
    (t.noError → ∃ _ : a.toNat < 8, t.out = s.out ++ [s.regs[a.toNat]]) ∧ (¬t.noError → t.out = s.out))

/-- R28: the halt flag is false at construction, only HALT sets it, no instruction clears it, and once it is set no further
instruction executes. The last clause takes the agreement of flag and outcome, which is part of the machine's invariant. -/
def Obligations.HaltFlagIsSetOnceAndForAll : Prop :=
  State.reset.halted = false ∧
  (∀ (i : Instr) (s t : State), exec i s = .next t → s.halted = false → t.halted = true → i = .halt) ∧
  (∀ s : State, s.pc.toNat + 1 ≤ 255 → ∃ t, exec .halt s = .next t ∧ t.halted = true) ∧
  (∀ (i : Instr) (s t : State), exec i s = .next t → s.halted = true → t.halted = true) ∧
  (∀ s : State, s.haltAgrees → s.halted = true → ∀ t, step s ≠ .next t)

/-- The outcome becomes Halted only by a HALT (R101's corner case, R29; the flag and the outcome agreeing before). -/
def Obligations.OnlyHaltEndsTheRunAsHalted : Prop :=
  ∀ s t : State, s.haltAgrees → step s = .next t → t.outcome = .halted → s.nextInstr = some .halt

/-- R94: every handler that owns PC sets it on every path that does not raise, and JEQ and JNE advance by the width themselves when
they do not branch. -/
def Obligations.PcOwningHandlersSetPc : Prop :=
  ∀ s t : State, s.noError → t.noError →
    (∀ (a : Byte) (_ : a.toNat < 8), exec (.call a) s = .next t ∨ exec (.jmp a) s = .next t → t.pc = s.regs[a.toNat]) ∧
    (exec .ret s = .next t → t.pc = s.mem.read s.sp.toNat) ∧
    (∀ (a : Byte) (_ : a.toNat < 8), exec (.jeq a) s = .next t →
      (s.fl.toNat % 2 = 1 ∧ t.pc = s.regs[a.toNat]) ∨ (s.fl.toNat % 2 = 0 ∧ t.pc.toNat = s.pc.toNat + 2)) ∧
    (∀ (a : Byte) (_ : a.toNat < 8), exec (.jne a) s = .next t →
      (s.fl.toNat % 2 = 0 ∧ t.pc = s.regs[a.toNat]) ∨ (s.fl.toNat % 2 = 1 ∧ t.pc.toNat = s.pc.toNat + 2))

/-- A step whose opcode has bit 4 clear and that does not raise advances PC by 1 + the opcode's bits 7:6, without wrapping
(R25, R72, R88; D7). -/
def Obligations.LoopAdvancesByOpcodeWidth : Prop :=
  ∀ s t : State, step s = .next t → t.noError →
    (s.mem.read s.pc.toNat).toNat / 16 % 2 = 0 →
    t.pc.toNat = s.pc.toNat + 1 + (s.mem.read s.pc.toNat).toNat / 64

/-! ### Sequences of instructions -/

/-- A PUSH and at once a POP, neither raising, move the value and bring SP back (R123, marked derived by the spec). -/
def Obligations.PushThenPopMovesTheValue : Prop :=
  ∀ (s t u : State) (a b : Byte), s.mem.wf = true →
    s.nextInstr = some (.push a) → step s = .next t → t.nextInstr = some (.pop b) → step t = .next u → u.noError →
    ∃ (_ : a.toNat < 8) (_ : b.toNat < 8), u.regs[b.toNat] = s.regs[a.toNat] ∧ u.sp = s.sp

/-- A CALL and later a RET, at a state where SP and the byte at SP are as the CALL left them, return to the instruction after the
CALL with SP as before it and the registers as the called routine left them (R136, marked derived by the spec). -/
def Obligations.CallThenRetReturns : Prop :=
  ∀ (s t u v : State) (a : Byte), s.mem.wf = true →
    s.nextInstr = some (.call a) → step s = .next t → t.noError →
    u.sp = t.sp → u.mem.read t.sp.toNat = t.mem.read t.sp.toNat →
    u.nextInstr = some .ret → step u = .next v → v.noError →
    v.pc.toNat = s.pc.toNat + 2 ∧ v.sp = s.sp ∧ v.regs = u.regs

/-- A CMP followed by a JEQ branches iff the registers were equal, and followed by a JNE iff they were not (R114, R134, R135). -/
def Obligations.CompareThenBranch : Prop :=
  ∀ (s t u : State) (a b c : Byte), s.nextInstr = some (.cmp a b) → step s = .next t →
    step t = .next u → u.noError →
    (t.nextInstr = some (.jeq c) → ∃ (_ : a.toNat < 8) (_ : b.toNat < 8) (_ : c.toNat < 8),
      u.pc = if s.regs[a.toNat] = s.regs[b.toNat] then s.regs[c.toNat] else t.pc + 2) ∧
    (t.nextInstr = some (.jne c) → ∃ (_ : a.toNat < 8) (_ : b.toNat < 8) (_ : c.toNat < 8),
      u.pc = if s.regs[a.toNat] = s.regs[b.toNat] then t.pc + 2 else s.regs[c.toNat])

/-- A byte that a PUSH stores is what the next step fetches there, as an opcode or as an operand (R53, R171, marked derived by the
spec). -/
def Obligations.StoredByteIsFetchedNext : Prop :=
  ∀ (s t : State) (a : Byte) (f : Fetched), s.mem.wf = true →
    s.nextInstr = some (.push a) → step s = .next t → t.noError → fetch t = .ok f →
    ∃ _ : a.toNat < 8,
      (t.sp.toNat = t.pc.toNat → f.op = s.regs[a.toNat]) ∧
      (t.sp.toNat = t.pc.toNat + 1 → f.a = s.regs[a.toNat]) ∧
      (t.sp.toNat = t.pc.toNat + 2 → f.b = s.regs[a.toNat])

/-- A jump to its own address runs for ever: after any number of steps the state is the same, and `run` never returns
(R93, marked derived by the spec). -/
def Obligations.JumpToItselfNeverEnds : Prop :=
  ∀ (s : State) (a : Byte) (_ : a.toNat < 8), s.isRunning → s.halted = false → s.pc.toNat ≤ 253 →
    s.nextInstr = some (.jmp a) → s.regs[a.toNat] = s.pc →
    ∀ k, s.runFor k = s ∧ Session.run { machine := s, runCalled := false } k = none

/-! ### Memory -/

/-- After any writes to fresh memory, a read of an address gives the value of the most recent write to it, and 0 where there was none
(R16, R51). -/
def Obligations.ReadGivesTheMostRecentWrite : Prop :=
  ∀ (writes : List (Nat × Byte)) (addr : Nat), (∀ w ∈ writes, w.1 < 256) →
    Memory.read (writes.foldl (fun m w => Memory.write m w.1 w.2) []) addr =
      (((writes.filter fun w => w.1 = addr).getLast?).map (·.2)).getD 0

/-- Two memories in canonical form that read alike at every address are the same memory: the form loses nothing and adds nothing
(the model's own form, log entry 7). -/
def Obligations.CanonicalMemoriesThatReadAlikeAreEqual : Prop :=
  ∀ m n : Memory, m.wf = true → n.wf = true → (∀ addr, addr < 256 → m.read addr = n.read addr) → m = n

/-- Every access is bounds-checked and no address is reduced modulo 256. Of the checked read and write: an access to an address
outside 0..255, below 0 or above 255, does not happen and is AddressOutOfRange with that address; an access inside is that one
byte's read or write. Of a step: the first candidate read past 255, the push below 0 and the pop that would take SP past 255 raise
with the address or the pointer's value and change nothing but the outcome; and a step stores, if at all, at SP - 1 with SP above 0
(R43, R44, R50, R84; D6, D8, D9). The reads at PC and at SP need no check, both being bytes. -/
def Obligations.EveryAccessIsBoundsChecked : Prop :=
  (∀ (m : Memory) (addr : Int) (v : Byte),
    (0 ≤ addr ∧ addr ≤ 255 → readMem m addr = .ok (m.read addr.toNat) ∧ writeMem m addr v = .ok (m.write addr.toNat v)) ∧
    (addr < 0 ∨ 255 < addr → readMem m addr = .error (.addressOutOfRange .memory addr) ∧
      writeMem m addr v = .error (.addressOutOfRange .memory addr))) ∧
  ∀ s : State, s.isRunning →
    (∀ k, 1 ≤ k ∧ k ≤ 2 → 255 < s.pc.toNat + k → s.pc.toNat + (k - 1) ≤ 255 →
      step s = .next { s with outcome := .error ⟨.addressOutOfRange .memory (s.pc.toNat + k : Nat),
        s.pc, s.mem.read s.pc.toNat⟩ }) ∧
    (∀ i : Instr, s.pc.toNat ≤ 253 → s.nextInstr = some i → i.wellFormed = true →
      (i.mnemonic = .push ∨ i.mnemonic = .call → (s.sp.toNat : Int) - 1 < 0 →
        step s = .next { s with outcome := .error ⟨.addressOutOfRange .memory (s.sp.toNat - 1),
          s.pc, s.mem.read s.pc.toNat⟩ }) ∧
      (i.mnemonic = .pop ∨ i.mnemonic = .ret → 255 < (s.sp.toNat : Int) + 1 →
        step s = .next { s with outcome := .error ⟨.addressOutOfRange .memory (s.sp.toNat + 1),
          s.pc, s.mem.read s.pc.toNat⟩ })) ∧
    ∀ t, step s = .next t → t.mem = s.mem ∨ ∃ v, 0 < s.sp.toNat ∧ t.mem = s.mem.write (s.sp.toNat - 1) v

/-! ### Invariants and reset -/

/-- The machine right after construction (R16, R18, R22, R24, R27 to R30, R162; D3 to D5). -/
def Obligations.ResetState : Prop :=
  (∀ addr, State.reset.mem.read addr = 0x00) ∧
  (∀ k : Fin 8, State.reset.regs[k] = if k = 7 then 0xF4 else 0x00) ∧
  State.reset.sp = 0xF4 ∧ State.reset.pc = 0x00 ∧ State.reset.fl = 0x00 ∧ State.reset.halted = false ∧
  State.reset.outcome = .running ∧ State.reset.out = []

/-- The machine's invariant holds right after construction. -/
def Obligations.ResetSatisfiesInvariant : Prop := State.reset.Inv

/-- Every step keeps the machine's invariant: memory stays in its canonical form, the halt flag and the outcome agree, FL is 0 or
exactly one of E, G and L, and an error's record names the instruction at PC with a cause that a step can have
(R26 to R29, R91, R142 to R146; D2, D9, D13). -/
def Obligations.StepKeepsInvariant : Prop :=
  ∀ s t : State, s.Inv → step s = .next t → t.Inv

/-- From construction, through the load of any program, after any number of steps of its run, the invariant holds: among the rest the
outcome is Halted exactly when the halt flag is set, and an error is precise (R91, R142, R143, R145, R146, R165, R166; D4, D9). -/
def Obligations.EveryRunOfALoadedProgramKeepsInvariant : Prop :=
  ∀ (program : List Byte) (host : Session) (k : Nat), Session.construct.loadProgram program = .next host →
    (host.machine.runFor k).Inv

/-! ### The host's operations -/

/-- `load` before `run` writes exactly the addressed byte, an address outside 0..255 is AddressOutOfRange and a value outside 0..255 is
refused, both writing nothing; once `run` has been called it is refused (R34, R153; D17, D20; the order of the checks is log
entry 11). -/
def Obligations.LoadWritesOneByteBeforeRunOnly : Prop :=
  ∀ (host : Session) (addr value : Int),
    (host.runCalled = true → host.load addr value = .refused .loadAfterRun) ∧
    (host.runCalled = false → 0 ≤ value ∧ value ≤ 255 →
      (0 ≤ addr ∧ addr ≤ 255 → ∃ mem, host.load addr value =
          .next { host with machine := { host.machine with mem := mem } } ∧
        (host.machine.mem.wf = true → (mem.read addr.toNat).toNat = value.toNat) ∧
        ∀ other, other ≠ addr.toNat → mem.read other = host.machine.mem.read other) ∧
      (addr < 0 ∨ 255 < addr → host.load addr value = .fault (.addressOutOfRange .memory addr))) ∧
    (host.runCalled = false → value < 0 ∨ 255 < value →
      host.load addr value = .refused (.loadValueNotAByte value))

/-- The loader's contract: a program of at most 256 bytes lies at addresses 0, 1, 2, … in file order, every other cell is 0 and the
rest of the machine is as constructed; a longer one fails at address 256 (R165, R166; D4). -/
def Obligations.ProgramBytesLieFromAddressZero : Prop :=
  ∀ program : List Byte,
    (program.length ≤ 256 → ∃ mem, Session.construct.loadProgram program =
        .next { machine := { State.reset with mem := mem }, runCalled := false } ∧
      ∀ addr, mem.read addr = (program[addr]?).getD 0) ∧
    (256 < program.length → Session.construct.loadProgram program = .fault (.addressOutOfRange .memory 256))

/-- `run` returns a terminal outcome, that of the machine it leaves; looking later, or calling it again, gives the same outcome and
the same state; and its steps are `step` (R35, R81, R82, R153; D17). -/
def Obligations.RunReturnsOnlyTerminalOutcomes : Prop :=
  (∀ (host host' : Session) (k : Nat) (o : RunOutcome), host.run k = some (o, host') →
    o ≠ .running ∧ host'.machine.outcome = o ∧ host'.runCalled = true ∧
    (∀ j, k ≤ j → host.run j = some (o, host')) ∧ ∀ j, host'.run j = some (o, host')) ∧
  (∀ (s t : State) (k : Nat), step s = .next t → s.runFor (k + 1) = t.runFor k)

/-- A byte's text is its unsigned decimal representation in ASCII digits without leading zeros, and the output port has written one
such line with its terminator per value of Out, in order (R37, R174; D16). -/
def Obligations.OutputTextIsUnsignedDecimalLines : Prop :=
  (∀ v : Byte, (∀ d ∈ decimalText v, 0x30 ≤ d.toNat ∧ d.toNat ≤ 0x39) ∧
    (decimalText v).foldl (fun n d => 10 * n + (d.toNat - 0x30)) 0 = v.toNat ∧
    (v ≠ 0 → ∃ d rest, decimalText v = d :: rest ∧ d ≠ 0x30) ∧ (v = 0 → decimalText v = [0x30])) ∧
  ∀ s : State, s.outputText = s.out.flatMap fun v => decimalText v ++ [0x0A]

/-! ### Errors and the ALU -/

/-- The fields of an error record by its cause: the kind's code 1, 2 or 3, the space and value of AddressOutOfRange only, the operation
of UnsupportedAluOperation only (R141, R145; D13). -/
def Obligations.ErrorRecordFields : Prop :=
  ∀ r : ErrorRecord,
    (∀ space value, r.cause = .addressOutOfRange space value →
      r.kind = .addressOutOfRange ∧ r.code = 1 ∧ r.space = some space ∧ r.value = some value ∧ r.aluOp = none) ∧
    (r.cause = .decodeError →
      r.kind = .decodeError ∧ r.code = 2 ∧ r.space = none ∧ r.value = none ∧ r.aluOp = none) ∧
    (∀ op, r.cause = .unsupportedAluOperation op →
      r.kind = .unsupportedAluOperation ∧ r.code = 3 ∧ r.space = none ∧ r.value = none ∧ r.aluOp = some op)

/-- The ALU checks `a` and then `b`; on valid operands it writes `x[a]` or FL and nothing else, and an operation that is none of ADD,
MUL and COMPARE raises UnsupportedAluOperation (R111, R146; D2, D12). -/
def Obligations.AluWritesRegisterOrFlagsNeverBoth : Prop :=
  ∀ (op : AluOp) (a b : Byte) (s : State),
    (8 ≤ a.toNat → alu op a b s = .error (.addressOutOfRange .register a.toNat)) ∧
    (a.toNat < 8 → 8 ≤ b.toNat → alu op a b s = .error (.addressOutOfRange .register b.toNat)) ∧
    ∀ (_ : a.toNat < 8) (_ : b.toNat < 8),
      (op = .add → ∃ w, alu op a b s = .ok { s with regs := s.regs.set a.toNat w } ∧
        w.toNat = (s.regs[a.toNat].toNat + s.regs[b.toNat].toNat) % 256) ∧
      (op = .mul → ∃ w, alu op a b s = .ok { s with regs := s.regs.set a.toNat w } ∧
        w.toNat = s.regs[a.toNat].toNat * s.regs[b.toNat].toNat % 256) ∧
      (op = .compare → ∃ w, alu op a b s = .ok { s with fl := w } ∧
        (w = 0x01 ↔ s.regs[a.toNat].toNat = s.regs[b.toNat].toNat) ∧
        (w = 0x02 ↔ s.regs[a.toNat].toNat > s.regs[b.toNat].toNat) ∧
        (w = 0x04 ↔ s.regs[a.toNat].toNat < s.regs[b.toNat].toNat)) ∧
      ∀ name, op = .other name → alu op a b s = .error (.unsupportedAluOperation (.other name))

/-- No instruction of the thirteen raises UnsupportedAluOperation, in any state (R111, R146, marked derived by the spec). -/
def Obligations.NoInstructionRaisesUnsupportedAluOperation : Prop :=
  ∀ (i : Instr) (s t : State) (record : ErrorRecord) (op : AluOp), s.noError → exec i s = .next t →
    t.outcome = .error record → record.cause ≠ .unsupportedAluOperation op
end

