-- ==== Sys2Proof/Laws/Decode.lean ====
section
/-! SUPPORT. The dispatch table read in both directions. -/

namespace Sys2Proof

/-- Every handler stands in the table. -/
theorem Mnemonic.mem_all (m : Mnemonic) : m ∈ Mnemonic.all := by
  cases m <;> decide

/-- The opcode of a handler is registered to it (R66). -/
theorem lookup_opcodeMap (m : Mnemonic) : lookup (opcodeMap m) = some m := by
  cases m <;> decide

/-- A registered opcode is the opcode of its handler (R66). -/
theorem opcodeMap_of_lookup {op : Byte} {m : Mnemonic} (h : lookup op = some m) : opcodeMap m = op := by
  simpa using List.find?_some h

/-- An opcode of no handler is not registered (R69). -/
theorem lookup_eq_none {op : Byte} (h : ∀ m, opcodeMap m ≠ op) : lookup op = none := by
  simp [lookup, lookupWith, List.find?_eq_none, h]

/-- A dispatched instruction's handler is the one its opcode is registered to (R85). -/
theorem opcodeMap_of_dispatch {op a b : Byte} {i : Instr} (h : dispatch op a b = some i) :
    opcodeMap i.mnemonic = op := by
  obtain ⟨m, hm, rfl⟩ := Option.map_eq_some_iff.mp h
  rw [← opcodeMap_of_lookup hm]
  cases m <;> rfl

end Sys2Proof
end

