-- ==== Sys2Proof/Laws/State.lean ====
section
/-! SUPPORT. One lemma per field for each way a state is updated, all true by unfolding. -/

namespace Sys2Proof.Machine

variable (s : State) (i : Fin Config.numRegs) (v : Byte) (c : ErrorCause)

@[simp] theorem writeReg_mem : (s.writeReg i v).mem = s.mem := rfl
@[simp] theorem writeReg_regs : (s.writeReg i v).regs = s.regs.set i v := rfl
@[simp] theorem writeReg_sp : (s.writeReg i v).sp = s.sp := rfl
@[simp] theorem writeReg_pc : (s.writeReg i v).pc = s.pc := rfl
@[simp] theorem writeReg_fl : (s.writeReg i v).fl = s.fl := rfl
@[simp] theorem writeReg_halted : (s.writeReg i v).halted = s.halted := rfl
@[simp] theorem writeReg_outcome : (s.writeReg i v).outcome = s.outcome := rfl
@[simp] theorem writeReg_out : (s.writeReg i v).out = s.out := rfl

@[simp] theorem raise_mem : (raise s c).mem = s.mem := rfl
@[simp] theorem raise_regs : (raise s c).regs = s.regs := rfl
@[simp] theorem raise_sp : (raise s c).sp = s.sp := rfl
@[simp] theorem raise_pc : (raise s c).pc = s.pc := rfl
@[simp] theorem raise_fl : (raise s c).fl = s.fl := rfl
@[simp] theorem raise_halted : (raise s c).halted = s.halted := rfl
@[simp] theorem raise_out : (raise s c).out = s.out := rfl
@[simp] theorem raise_outcome :
    (raise s c).outcome = .error { cause := c, pc := s.pc, opcode := s.mem.read s.pc.toNat } := rfl

/-- The end of a step touches the outcome alone (R90). -/
theorem endStep_eq : endStep s = { s with outcome := if s.halted then .halted else s.outcome } := by
  rcases s with ⟨_, _, _, _, _, halted, _, _⟩
  cases halted <;> rfl

@[simp] theorem endStep_mem : (endStep s).mem = s.mem := by rw [endStep_eq]
@[simp] theorem endStep_regs : (endStep s).regs = s.regs := by rw [endStep_eq]
@[simp] theorem endStep_sp : (endStep s).sp = s.sp := by rw [endStep_eq]
@[simp] theorem endStep_pc : (endStep s).pc = s.pc := by rw [endStep_eq]
@[simp] theorem endStep_fl : (endStep s).fl = s.fl := by rw [endStep_eq]
@[simp] theorem endStep_halted : (endStep s).halted = s.halted := by rw [endStep_eq]
@[simp] theorem endStep_out : (endStep s).out = s.out := by rw [endStep_eq]
@[simp] theorem endStep_outcome :
    (endStep s).outcome = if s.halted then .halted else s.outcome := by rw [endStep_eq]

/-- A register read by its operand's number (R9). -/
@[simp] theorem readReg_mk (n : Nat) (h : n < Config.numRegs) : s.readReg ⟨n, h⟩ = s.regs[n] := rfl

end Sys2Proof.Machine
end

