-- ==== Sys2Proof/Laws/Ops.lean ====
section
/-! SUPPORT. One lemma for each thing a shared operation can do. -/

namespace Sys2Proof.Machine

@[simp] theorem ok_bind {α β : Type} (x : α) (f : α → Except ErrorCause β) : (Except.ok x >>= f) = f x := rfl

@[simp] theorem error_bind {α β : Type} (c : ErrorCause) (f : α → Except ErrorCause β) :
    ((Except.error c : Except ErrorCause α) >>= f) = .error c := rfl

/-- A register operand below 8 names its register (R65). -/
theorem checkReg_of_lt {a : Byte} (h : a.toNat < Config.numRegs) : checkReg a = .ok ⟨a.toNat, h⟩ := by
  simp [checkReg, h]

/-- A register operand of 8 or more raises with its own value (R143). -/
theorem checkReg_of_ge {a : Byte} (h : Config.numRegs ≤ a.toNat) :
    checkReg a = .error (.addressOutOfRange .register a.toNat) := by
  simp [checkReg, Nat.not_lt.mpr h]

/-- The advance, where it stays in the address space (R88). -/
theorem nextPc_of_le {p : Byte} {n : Nat} (h : p.toNat + 1 + n ≤ 255) :
    nextPc p n = .ok (BitVec.ofNat 8 (p.toNat + 1 + n)) := by
  simp [nextPc, Nat.not_lt.mpr h]

/-- The advance past 255 raises (R88). -/
theorem nextPc_of_gt {p : Byte} {n : Nat} (h : 255 < p.toNat + 1 + n) :
    nextPc p n = .error (.addressOutOfRange .memory (p.toNat + 1 + n)) := by
  simp [nextPc, h]

theorem pushTarget_of_ne {s : State} (h : s.sp ≠ 0) : pushTarget s = .ok (s.sp - 1) := by
  rw [pushTarget, if_neg h]

theorem pushTarget_of_eq {s : State} (h : s.sp = 0) :
    pushTarget s = .error (.addressOutOfRange .memory (-1)) := by
  simp [pushTarget, h]

/-- A push, where SP is not 0 (R50). -/
theorem push_of_ne {s : State} (h : s.sp ≠ 0) (v : Byte) :
    push v s = .ok { s with mem := s.mem.write (s.sp - 1).toNat v, sp := s.sp - 1 } := by
  simp [push, pushTarget_of_ne h]

/-- A push at SP = 0 raises with -1 (R50). -/
theorem push_of_eq {s : State} (h : s.sp = 0) (v : Byte) :
    push v s = .error (.addressOutOfRange .memory (-1)) := by
  simp [push, pushTarget_of_eq h]

/-- A pop, where SP is not 255 (R50). -/
theorem pop_of_ne {s : State} (h : s.sp ≠ 255) :
    pop s = .ok (s.mem.read s.sp.toNat, { s with sp := s.sp + 1 }) := by
  rw [pop, if_neg h]

/-- A pop at SP = 255 raises with 256 (R50). -/
theorem pop_of_eq {s : State} (h : s.sp = 255) : pop s = .error (.addressOutOfRange .memory 256) := by
  simp [pop, h]

/-- The loop's advance, where it stays in the address space (R88). -/
theorem autoAdvance_of_le {p : Byte} {n : Nat} (h : p.toNat + 1 + n ≤ 255) (t : State) :
    autoAdvance p n t = .ok { t with pc := BitVec.ofNat 8 (p.toNat + 1 + n) } := by
  simp only [autoAdvance, nextPc_of_le h, ok_bind]

/-- The loop's advance past 255 raises, whatever the handler wrote (R88). -/
theorem autoAdvance_of_gt {p : Byte} {n : Nat} (h : 255 < p.toNat + 1 + n) (t : State) :
    autoAdvance p n t = .error (.addressOutOfRange .memory (p.toNat + 1 + n)) := by
  simp only [autoAdvance, nextPc_of_gt h, error_bind]

/-- The ALU on two registers that exist (R111). -/
theorem alu_of_lt {a b : Byte} (ha : a.toNat < Config.numRegs) (hb : b.toNat < Config.numRegs) (op : AluOp) (s : State) :
    alu op a b s = match op with
      | .add => .ok (s.writeReg ⟨a.toNat, ha⟩ (addBytes s.regs[a.toNat] s.regs[b.toNat]))
      | .mul => .ok (s.writeReg ⟨a.toNat, ha⟩ (mulBytes s.regs[a.toNat] s.regs[b.toNat]))
      | .compare => .ok { s with fl := compareFlags s.regs[a.toNat] s.regs[b.toNat] }
      | .other name => .error (.unsupportedAluOperation (.other name)) := by
  cases op <;> simp only [alu, checkReg_of_lt ha, checkReg_of_lt hb, ok_bind, readReg_mk]

/-- A conditional jump that is taken (R134, R135). -/
theorem branch_taken {a : Byte} (ha : a.toNat < Config.numRegs) (s : State) :
    branch true a s = .ok { s with pc := s.regs[a.toNat] } := by
  simp only [branch, checkReg_of_lt ha, ok_bind, readReg_mk, if_true]

/-- A conditional jump that is not taken (R134, R135). -/
theorem branch_not_taken {a : Byte} (ha : a.toNat < Config.numRegs) (s : State) :
    branch false a s = autoAdvance s.pc 1 s := by
  simp [branch, checkReg_of_lt ha]

/-- A step's fetch, where all three bytes are in the address space (R83, R84). -/
theorem fetch_of_le {s : State} (h : s.pc.toNat ≤ 253) :
    fetch s = .ok { op := s.mem.read s.pc.toNat, a := s.mem.read (s.pc.toNat + 1),
                    b := s.mem.read (s.pc.toNat + 2) } := by
  have h1 : outOfRange ((s.pc.toNat : Int) + 1) = false := by simp [outOfRange]; omega
  have h2 : outOfRange ((s.pc.toNat : Int) + 2) = false := by simp [outOfRange]; omega
  simp only [fetch, readMem, h1, h2]
  rfl

/-- At PC = 254 and at PC = 255 the fetch raises with 256 (R84). -/
theorem fetch_of_gt {s : State} (h : 253 < s.pc.toNat) :
    fetch s = .error (.addressOutOfRange .memory 256) := by
  have hlt := s.pc.isLt
  obtain h4 | h5 : s.pc.toNat = 254 ∨ s.pc.toNat = 255 := by omega
  · simp [fetch, readMem, outOfRange, h4]
  · simp [fetch, readMem, outOfRange, h5]

@[simp] theorem finish_ok (s t : State) : finish s (.ok t) = .next (endStep t) := rfl

@[simp] theorem finish_error (s : State) (c : ErrorCause) : finish s (.error c) = .next (raise s c) := rfl

/-- A step's end always answers a next state (R10, R148). -/
theorem finish_next (s : State) (r : Except ErrorCause State) : ∃ t, finish s r = .next t := by
  cases r <;> exact ⟨_, rfl⟩

end Sys2Proof.Machine
end

