-- ==== Sys2Proof/Laws/Exec.lean ====
section
/-! SUPPORT. What one instruction can do, said once: it has its effect (`Effect`) or it raises (`Raises`), and it always
answers a next state. Later proofs cite `exec_cases`, `exec_of_effect` and `exec_of_raises` and unfold no meaning. -/

namespace Sys2Proof.Machine

/-- The next state of an instruction that does not raise, before the step's last line. -/
def Effect : Instr → State → State → Prop
  | .halt, s, u => s.pc.toNat + 1 ≤ 255 ∧
      u = { s with halted := true, pc := BitVec.ofNat 8 (s.pc.toNat + 1) }
  | .ldi a b, s, u => ∃ _ : a.toNat < Config.numRegs, s.pc.toNat + 3 ≤ 255 ∧
      u = { s with regs := s.regs.set a.toNat b, pc := BitVec.ofNat 8 (s.pc.toNat + 3) }
  | .prn a, s, u => ∃ _ : a.toNat < Config.numRegs, s.pc.toNat + 2 ≤ 255 ∧
      u = { s with out := s.out ++ [s.regs[a.toNat]], pc := BitVec.ofNat 8 (s.pc.toNat + 2) }
  | .mul a b, s, u => ∃ (_ : a.toNat < Config.numRegs) (_ : b.toNat < Config.numRegs), s.pc.toNat + 3 ≤ 255 ∧
      u = { s with regs := s.regs.set a.toNat (mulBytes s.regs[a.toNat] s.regs[b.toNat]),
                   pc := BitVec.ofNat 8 (s.pc.toNat + 3) }
  | .add a b, s, u => ∃ (_ : a.toNat < Config.numRegs) (_ : b.toNat < Config.numRegs), s.pc.toNat + 3 ≤ 255 ∧
      u = { s with regs := s.regs.set a.toNat (addBytes s.regs[a.toNat] s.regs[b.toNat]),
                   pc := BitVec.ofNat 8 (s.pc.toNat + 3) }
  | .cmp a b, s, u => ∃ (_ : a.toNat < Config.numRegs) (_ : b.toNat < Config.numRegs), s.pc.toNat + 3 ≤ 255 ∧
      u = { s with fl := compareFlags s.regs[a.toNat] s.regs[b.toNat],
                   pc := BitVec.ofNat 8 (s.pc.toNat + 3) }
  | .push a, s, u => ∃ _ : a.toNat < Config.numRegs, s.sp ≠ 0 ∧ s.pc.toNat + 2 ≤ 255 ∧
      u = { s with mem := s.mem.write (s.sp - 1).toNat s.regs[a.toNat], sp := s.sp - 1,
                   pc := BitVec.ofNat 8 (s.pc.toNat + 2) }
  | .pop a, s, u => ∃ _ : a.toNat < Config.numRegs, s.sp ≠ 255 ∧ s.pc.toNat + 2 ≤ 255 ∧
      u = { s with regs := s.regs.set a.toNat (s.mem.read s.sp.toNat), sp := s.sp + 1,
                   pc := BitVec.ofNat 8 (s.pc.toNat + 2) }
  | .call a, s, u => ∃ _ : a.toNat < Config.numRegs, s.sp ≠ 0 ∧ s.pc.toNat + 2 ≤ 255 ∧
      u = { s with mem := s.mem.write (s.sp - 1).toNat (BitVec.ofNat 8 (s.pc.toNat + 2)), sp := s.sp - 1,
                   pc := s.regs[a.toNat] }
  | .ret, s, u => s.sp ≠ 255 ∧ u = { s with sp := s.sp + 1, pc := s.mem.read s.sp.toNat }
  | .jmp a, s, u => ∃ _ : a.toNat < Config.numRegs, u = { s with pc := s.regs[a.toNat] }
  | .jeq a, s, u => ∃ _ : a.toNat < Config.numRegs,
      (equalSet s.fl = true ∧ u = { s with pc := s.regs[a.toNat] }) ∨
      (equalSet s.fl = false ∧ s.pc.toNat + 2 ≤ 255 ∧ u = { s with pc := BitVec.ofNat 8 (s.pc.toNat + 2) })
  | .jne a, s, u => ∃ _ : a.toNat < Config.numRegs,
      (equalSet s.fl = false ∧ u = { s with pc := s.regs[a.toNat] }) ∨
      (equalSet s.fl = true ∧ s.pc.toNat + 2 ≤ 255 ∧ u = { s with pc := BitVec.ofNat 8 (s.pc.toNat + 2) })

/-- The first register operand of 8 or more (R143). -/
def badReg (i : Instr) : Option Byte := i.regOperands.find? fun r => Config.numRegs ≤ r.toNat

/-- The instruction computes the address after it (R88, R131, R134, R135). -/
def computesNext : Instr → State → Prop
  | .ret, _ => False
  | .jmp _, _ => False
  | .jeq _, s => equalSet s.fl = false
  | .jne _, s => equalSet s.fl = true
  | _, _ => True

/-- When an instruction raises, and with which cause, in the order of R147. -/
inductive Raises (i : Instr) (s : State) : ErrorCause → Prop
  | register (x : Byte) (h : badReg i = some x) : Raises i s (.addressOutOfRange .register x.toNat)
  | pushBound (h : badReg i = none) (hi : i.mnemonic = .push ∨ i.mnemonic = .call) (hs : s.sp = 0) :
      Raises i s (.addressOutOfRange .memory (-1))
  | popBound (h : badReg i = none) (hi : i.mnemonic = .pop ∨ i.mnemonic = .ret) (hs : s.sp = 255) :
      Raises i s (.addressOutOfRange .memory 256)
  | advance (h : badReg i = none)
      (hpush : i.mnemonic = .push ∨ i.mnemonic = .call → s.sp ≠ 0) (hpop : i.mnemonic = .pop → s.sp ≠ 255)
      (hc : computesNext i s) (hp : 255 < s.pc.toNat + i.width) :
      Raises i s (.addressOutOfRange .memory ((s.pc.toNat + i.width : Nat) : Int))

theorem badReg_one {a : Byte} {i : Instr} (hi : i.regOperands = [a]) :
    badReg i = if Config.numRegs ≤ a.toNat then some a else none := by
  simp only [badReg, hi, List.find?]
  by_cases h : Config.numRegs ≤ a.toNat <;> simp [h]

theorem badReg_two {a b : Byte} {i : Instr} (hi : i.regOperands = [a, b]) :
    badReg i = if Config.numRegs ≤ a.toNat then some a else if Config.numRegs ≤ b.toNat then some b else none := by
  simp only [badReg, hi, List.find?]
  by_cases h : Config.numRegs ≤ a.toNat <;> by_cases h' : Config.numRegs ≤ b.toNat <;> simp [h, h']

/-- The shape of a handler's result: its effect, or a raise. -/
def Result (i : Instr) (s : State) (r : Except ErrorCause State) : Prop :=
  (∃ u, r = .ok u ∧ Effect i s u) ∨ ∃ c, r = .error c ∧ Raises i s c

/-- The auto-advance of a handler whose state before the advance is `t` (R88). -/
theorem result_advance {i : Instr} {s t : State} {n : Nat} (hw : i.width = 1 + n)
    (hreg : badReg i = none) (hpush : i.mnemonic = .push ∨ i.mnemonic = .call → s.sp ≠ 0)
    (hpop : i.mnemonic = .pop → s.sp ≠ 255) (hc : computesNext i s)
    (heff : s.pc.toNat + (1 + n) ≤ 255 → Effect i s { t with pc := BitVec.ofNat 8 (s.pc.toNat + (1 + n)) }) :
    Result i s (autoAdvance s.pc n t) := by
  by_cases hp : s.pc.toNat + 1 + n ≤ 255
  · refine .inl ⟨_, by simp only [autoAdvance, nextPc_of_le hp, ok_bind]; rfl, ?_⟩
    rw [Nat.add_assoc]
    exact heff (by omega)
  · refine .inr ⟨_, by simp only [autoAdvance, nextPc_of_gt (by omega : 255 < s.pc.toNat + 1 + n), error_bind]; rfl, ?_⟩
    have := Raises.advance (i := i) hreg hpush hpop hc (by omega)
    rw [hw] at this
    convert this using 2
    push_cast
    omega

/-- A handler that checks one register first (R143). -/
theorem result_checkReg {i : Instr} {s : State} {a : Byte} {f : Fin Config.numRegs → Except ErrorCause State}
    (hi : i.regOperands = [a])
    (h : ∀ ha : a.toNat < Config.numRegs, badReg i = none → Result i s (f ⟨a.toNat, ha⟩)) :
    Result i s (checkReg a >>= f) := by
  by_cases ha : a.toNat < Config.numRegs
  · rw [checkReg_of_lt ha, ok_bind]
    exact h ha (by rw [badReg_one hi, if_neg (by omega)])
  · rw [checkReg_of_ge (by omega), error_bind]
    exact .inr ⟨_, rfl, .register a (by rw [badReg_one hi, if_pos (by omega)])⟩

/-- A handler that checks two registers first, `a` and then `b` (R143). -/
theorem result_checkRegs {i : Instr} {s : State} {a b : Byte}
    {f : Fin Config.numRegs → Fin Config.numRegs → Except ErrorCause State} (hi : i.regOperands = [a, b])
    (h : ∀ (ha : a.toNat < Config.numRegs) (hb : b.toNat < Config.numRegs), badReg i = none →
      Result i s (f ⟨a.toNat, ha⟩ ⟨b.toNat, hb⟩)) :
    Result i s (checkReg a >>= fun ra => checkReg b >>= f ra) := by
  by_cases ha : a.toNat < Config.numRegs
  · rw [checkReg_of_lt ha, ok_bind]
    by_cases hb : b.toNat < Config.numRegs
    · rw [checkReg_of_lt hb, ok_bind]
      exact h ha hb (by rw [badReg_two hi, if_neg (by omega), if_neg (by omega)])
    · rw [checkReg_of_ge (by omega), error_bind]
      exact .inr ⟨_, rfl, .register b (by rw [badReg_two hi, if_neg (by omega), if_pos (by omega)])⟩
  · rw [checkReg_of_ge (by omega), error_bind]
    exact .inr ⟨_, rfl, .register a (by rw [badReg_two hi, if_pos (by omega)])⟩

/-- A handler that pushes first (R50). -/
theorem result_push {i : Instr} {s : State} {r : Except ErrorCause State} (hreg : badReg i = none)
    (hi : i.mnemonic = .push ∨ i.mnemonic = .call)
    (h0 : s.sp = 0 → r = .error (.addressOutOfRange .memory (-1))) (h : s.sp ≠ 0 → Result i s r) : Result i s r := by
  by_cases hs : s.sp = 0
  · exact .inr ⟨_, h0 hs, .pushBound hreg hi hs⟩
  · exact h hs

/-- A handler that pops first (R50). -/
theorem result_pop {i : Instr} {s : State} {f : Byte × State → Except ErrorCause State} (hreg : badReg i = none)
    (hi : i.mnemonic = .pop ∨ i.mnemonic = .ret)
    (h : s.sp ≠ 255 → Result i s (f (s.mem.read s.sp.toNat, { s with sp := s.sp + 1 }))) :
    Result i s (pop s >>= f) := by
  by_cases hs : s.sp = 255
  · rw [pop_of_eq hs, error_bind]
    exact .inr ⟨_, rfl, .popBound hreg hi hs⟩
  · rw [pop_of_ne hs, ok_bind]
    exact h hs

/-- A conditional jump (R134, R135). -/
theorem result_branch {i : Instr} {s : State} {a : Byte} {taken : Bool} (hi : i.regOperands = [a])
    (hw : i.width = 2) (hm : i.mnemonic = .jeq ∨ i.mnemonic = .jne) (hc : taken = false → computesNext i s)
    (ht : taken = true → ∀ _ : a.toNat < Config.numRegs, Effect i s { s with pc := s.regs[a.toNat] })
    (hn : taken = false → a.toNat < Config.numRegs → s.pc.toNat + 2 ≤ 255 →
      Effect i s { s with pc := BitVec.ofNat 8 (s.pc.toNat + 2) }) :
    Result i s (branch taken a s) := by
  refine result_checkReg hi fun ha hreg => ?_
  cases htk : taken with
  | true => exact .inl ⟨_, rfl, ht htk ha⟩
  | false =>
    refine result_advance hw hreg (fun h => ?_) (fun h => ?_) (hc htk) fun hp => hn htk ha hp
    · rcases hm with hm | hm <;> rw [hm] at h <;> simp at h
    · rcases hm with hm | hm <;> rw [hm] at h <;> simp at h

/-- Every instruction ends as its effect or as a raise. -/
theorem exec_result (i : Instr) (s : State) : ∃ r, exec i s = finish s r ∧ Result i s r := by
  cases i with
  | halt =>
    exact ⟨_, rfl, result_advance rfl rfl (by simp [Instr.mnemonic]) (by simp [Instr.mnemonic]) trivial
      fun hp => ⟨hp, rfl⟩⟩
  | ldi a b =>
    exact ⟨_, rfl, result_checkReg rfl fun ha hreg => result_advance rfl hreg (by simp [Instr.mnemonic])
      (by simp [Instr.mnemonic]) trivial fun hp => ⟨ha, hp, rfl⟩⟩
  | prn a =>
    exact ⟨_, rfl, result_checkReg rfl fun ha hreg => result_advance rfl hreg (by simp [Instr.mnemonic])
      (by simp [Instr.mnemonic]) trivial fun hp => ⟨ha, hp, rfl⟩⟩
  | mul a b =>
    refine ⟨_, rfl, ?_⟩
    rw [alu, bind_assoc]
    simp only [bind_assoc]
    exact result_checkRegs (f := fun ra rb => .ok _ >>= autoAdvance s.pc 2) rfl fun ha hb hreg =>
      result_advance rfl hreg (by simp [Instr.mnemonic]) (by simp [Instr.mnemonic]) trivial fun hp => ⟨ha, hb, hp, rfl⟩
  | add a b =>
    refine ⟨_, rfl, ?_⟩
    rw [alu, bind_assoc]
    simp only [bind_assoc]
    exact result_checkRegs (f := fun ra rb => .ok _ >>= autoAdvance s.pc 2) rfl fun ha hb hreg =>
      result_advance rfl hreg (by simp [Instr.mnemonic]) (by simp [Instr.mnemonic]) trivial fun hp => ⟨ha, hb, hp, rfl⟩
  | cmp a b =>
    refine ⟨_, rfl, ?_⟩
    rw [alu, bind_assoc]
    simp only [bind_assoc]
    exact result_checkRegs (f := fun ra rb => .ok _ >>= autoAdvance s.pc 2) rfl fun ha hb hreg =>
      result_advance rfl hreg (by simp [Instr.mnemonic]) (by simp [Instr.mnemonic]) trivial fun hp => ⟨ha, hb, hp, rfl⟩
  | push a =>
    refine ⟨_, rfl, result_checkReg rfl fun ha hreg =>
      result_push hreg (.inl rfl) (fun h0 => by rw [push_of_eq h0, error_bind]) fun hs => ?_⟩
    rw [push_of_ne hs, ok_bind]
    exact result_advance rfl hreg (fun _ => hs) (by simp [Instr.mnemonic]) trivial fun hp => ⟨ha, hs, hp, rfl⟩
  | pop a =>
    exact ⟨_, rfl, result_checkReg rfl fun ha hreg => result_pop hreg (.inl rfl) fun hs =>
      result_advance rfl hreg (by simp [Instr.mnemonic]) (fun _ => hs) trivial fun hp => ⟨ha, hs, hp, rfl⟩⟩
  | call a =>
    refine ⟨_, rfl, result_checkReg rfl fun ha hreg =>
      result_push hreg (.inr rfl) (fun h0 => by rw [pushTarget_of_eq h0, error_bind]) fun hs => ?_⟩
    rw [pushTarget_of_ne hs, ok_bind]
    by_cases hp : s.pc.toNat + 1 + 1 ≤ 255
    · rw [nextPc_of_le hp, ok_bind, push_of_ne hs, ok_bind]
      exact .inl ⟨_, rfl, ha, hs, hp, rfl⟩
    · rw [nextPc_of_gt (by omega), error_bind]
      refine .inr ⟨_, rfl, ?_⟩
      exact .advance (i := .call a) hreg (fun _ => hs) (by simp [Instr.mnemonic]) trivial
        (by simp only [Instr.width, Instr.mnemonic, Mnemonic.operandCount]; omega)
  | ret => exact ⟨_, rfl, result_pop rfl (.inr rfl) fun hs => .inl ⟨_, rfl, hs, rfl⟩⟩
  | jmp a => exact ⟨_, rfl, result_checkReg rfl fun ha _ => .inl ⟨_, rfl, ha, rfl⟩⟩
  | jeq a =>
    exact ⟨_, rfl, result_branch rfl rfl (.inl rfl) (fun h => h) (fun h ha => ⟨ha, .inl ⟨h, rfl⟩⟩)
      fun h ha hp => ⟨ha, .inr ⟨h, hp, rfl⟩⟩⟩
  | jne a =>
    exact ⟨_, rfl, result_branch rfl rfl (.inr rfl) (fun h => by simpa [computesNext] using h)
      (fun h ha => ⟨ha, .inl ⟨by simpa using h, rfl⟩⟩) fun h ha hp => ⟨ha, .inr ⟨by simpa using h, hp, rfl⟩⟩⟩

/-- What an instruction's next state can be. -/
theorem exec_cases {i : Instr} {s t : State} (h : exec i s = .next t) :
    (∃ u, Effect i s u ∧ t = endStep u) ∨ ∃ c, Raises i s c ∧ t = raise s c := by
  obtain ⟨r, hr, hres⟩ := exec_result i s
  rw [hr] at h
  rcases hres with ⟨u, rfl, hu⟩ | ⟨c, rfl, hc⟩
  · exact .inl ⟨u, hu, (Host.Outcome.next.inj h).symm⟩
  · exact .inr ⟨c, hc, (Host.Outcome.next.inj h).symm⟩

/-- Every instruction answers a next state: none faults and none is refused (R10, R152). -/
theorem exec_next (i : Instr) (s : State) : ∃ t, exec i s = .next t := by
  obtain ⟨r, hr, -⟩ := exec_result i s
  exact hr ▸ finish_next s r

/-- An instruction has at most one effect. -/
theorem Effect.unique {i : Instr} {s u v : State} (hu : Effect i s u) (hv : Effect i s v) : u = v := by
  cases i <;> simp only [Effect] at hu hv <;> grind

/-- An instruction that has its effect does not raise. -/
theorem Effect.not_raises {i : Instr} {s u : State} {c : ErrorCause} (hu : Effect i s u) : ¬Raises i s c := by
  rintro (⟨x, h⟩ | ⟨h, hi, hs⟩ | ⟨h, hi, hs⟩ | ⟨h, hpush, hpop, hc, hp⟩) <;> cases i <;>
    simp_all only [Effect, badReg, Instr.regOperands, Instr.mnemonic, Instr.width, Mnemonic.operandCount,
      computesNext, List.find?] <;> grind

/-- The converse of `exec_cases`, for the effect. -/
theorem exec_of_effect {i : Instr} {s u : State} (hu : Effect i s u) : exec i s = .next (endStep u) := by
  obtain ⟨r, hr, hres⟩ := exec_result i s
  rcases hres with ⟨v, rfl, hv⟩ | ⟨c, rfl, hc⟩
  · rw [hr, finish_ok, hu.unique hv]
  · exact absurd hc hu.not_raises

/-- An instruction raises with at most one cause: at most one error is reported per step (R147). -/
theorem Raises.unique {i : Instr} {s : State} {c d : ErrorCause} (hc : Raises i s c) (hd : Raises i s d) : c = d := by
  rcases hc with ⟨x, h⟩ | ⟨h, hi, hs⟩ | ⟨h, hi, hs⟩ | ⟨h, hpush, hpop, hn, hp⟩ <;>
    rcases hd with ⟨y, h'⟩ | ⟨h', hi', hs'⟩ | ⟨h', hi', hs'⟩ | ⟨h', hpush', hpop', hn', hp'⟩ <;>
    first
    | rfl
    | (cases i <;> simp_all [Instr.mnemonic, computesNext])

/-- The converse of `exec_cases`, for a raise. -/
theorem exec_of_raises {i : Instr} {s : State} {c : ErrorCause} (hc : Raises i s c) :
    exec i s = .next (raise s c) := by
  obtain ⟨r, hr, hres⟩ := exec_result i s
  rcases hres with ⟨v, rfl, hv⟩ | ⟨d, rfl, hd⟩
  · exact absurd hc hv.not_raises
  · rw [hr, finish_error, hc.unique hd]

/-- What a step of a running machine can be: the raise of a candidate read, the raise of the dispatch, or its
instruction (R89). -/
theorem step_cases {s t : State} (h : step s = .next t) :
    s.outcome = .running ∧
      ((253 < s.pc.toNat ∧ t = raise s (.addressOutOfRange .memory 256)) ∨
       (s.pc.toNat ≤ 253 ∧ s.nextInstr = none ∧ t = raise s .decodeError) ∨
       (s.pc.toNat ≤ 253 ∧ ∃ i, s.nextInstr = some i ∧ exec i s = .next t)) := by
  unfold step loopStep at h
  split at h
  · cases h
  · cases h
  · refine ⟨‹_›, ?_⟩
    by_cases hp : s.pc.toNat ≤ 253
    · rw [fetch_of_le hp] at h
      simp only at h
      split at h
      · exact .inr (.inl ⟨hp, ‹_›, (Host.Outcome.next.inj h).symm⟩)
      · exact .inr (.inr ⟨hp, _, ‹_›, h⟩)
    · rw [fetch_of_gt (by omega)] at h
      exact .inl ⟨by omega, (Host.Outcome.next.inj h).symm⟩

/-- A running machine with all three bytes in reach runs the instruction at PC (R89). -/
theorem step_of_nextInstr {s : State} {i : Instr} (hr : s.outcome = .running) (hp : s.pc.toNat ≤ 253)
    (hi : s.nextInstr = some i) : step s = exec i s := by
  unfold step loopStep
  rw [hr, fetch_of_le hp]
  simp only [State.nextInstr] at hi
  simp only [hi]

end Sys2Proof.Machine
end

