-- ==== Sys2Proof/Laws/Memory.lean ====
section
/-! SUPPORT. The laws of memory: what a read after a write gives, and that every operation keeps the canonical form. -/

namespace Sys2Proof.Machine.Memory

/-- The canonical form of a memory with a first entry. -/
theorem wf_cons {k : Nat} {v : Byte} {rest : Memory} :
    Memory.wf ((k, v) :: rest) = true ↔
      k < Config.memSize ∧ v ≠ Memory.unlisted ∧ (∀ c ∈ rest, k < c.1) ∧ Memory.wf rest = true := by
  simp [Memory.wf, and_assoc]

/-- An address below every entry is unlisted. -/
theorem read_of_lt {m : Memory} {addr : Nat} (h : ∀ c ∈ m, addr < c.1) : m.read addr = Memory.unlisted := by
  induction m with
  | nil => rfl
  | cons c rest ih =>
    obtain ⟨k, v⟩ := c
    have hk : addr < k := h (k, v) (by simp)
    simp [Memory.read, show k ≠ addr by omega, ih fun c hc => h c (by simp [hc])]

/-- What the entry put in front reads as. -/
theorem read_cons_self {rest : Memory} {addr : Nat} {v : Byte} (h : ∀ c ∈ rest, addr < c.1) :
    (Memory.cons addr v rest).read addr = v := by
  by_cases hv : v = Memory.unlisted
  · simp [Memory.cons, hv, read_of_lt h]
  · simp [Memory.cons, hv, Memory.read]

/-- Other addresses do not see the entry put in front. -/
theorem read_cons_of_ne {rest : Memory} {addr a : Nat} {v : Byte} (h : a ≠ addr) :
    (Memory.cons addr v rest).read a = rest.read a := by
  by_cases hv : v = Memory.unlisted <;> simp [Memory.cons, hv, Memory.read, Ne.symm h]

theorem mem_cons {rest : Memory} {addr : Nat} {v : Byte} {c : Host.Cell}
    (h : c ∈ Memory.cons addr v rest) : c = (addr, v) ∨ c ∈ rest := by
  unfold Memory.cons at h
  split at h
  · exact .inr h
  · simpa using h

theorem wf_cons_of_lt {rest : Memory} {addr : Nat} {v : Byte} (ha : addr < Config.memSize)
    (h : ∀ c ∈ rest, addr < c.1) (hr : rest.wf = true) : (Memory.cons addr v rest).wf = true := by
  unfold Memory.cons
  split
  · exact hr
  · exact wf_cons.mpr ⟨ha, ‹_›, h, hr⟩

/-- Read after write, same address (R51). -/
theorem read_write_self {m : Memory} (hm : m.wf = true) (addr : Nat) (v : Byte) :
    (m.write addr v).read addr = v := by
  induction m with
  | nil => exact read_cons_self (by simp)
  | cons c rest ih =>
    obtain ⟨k, x⟩ := c
    obtain ⟨-, -, hlt, hr⟩ := wf_cons.mp hm
    unfold Memory.write
    split
    · refine read_cons_self fun c hc => ?_
      rcases List.mem_cons.mp hc with rfl | hc
      · assumption
      · have := hlt c hc
        omega
    · split
      · subst addr
        exact read_cons_self hlt
      · simp [Memory.read, show k ≠ addr by omega, ih hr]

/-- Read after write, another address (R51). -/
theorem read_write_of_ne (m : Memory) {addr a : Nat} (h : a ≠ addr) (v : Byte) :
    (m.write addr v).read a = m.read a := by
  induction m with
  | nil => simp [Memory.write, read_cons_of_ne h]
  | cons c rest ih =>
    obtain ⟨k, x⟩ := c
    unfold Memory.write
    split
    · exact read_cons_of_ne h
    · split
      · subst addr
        simp [read_cons_of_ne h, Memory.read, Ne.symm h]
      · simp [Memory.read, ih]

theorem mem_write {m : Memory} {addr : Nat} {v : Byte} {c : Host.Cell} (h : c ∈ m.write addr v) :
    c.1 = addr ∨ c ∈ m := by
  induction m with
  | nil =>
    rcases mem_cons h with rfl | h
    · exact .inl rfl
    · simp at h
  | cons d rest ih =>
    obtain ⟨k, x⟩ := d
    unfold Memory.write at h
    split at h
    · rcases mem_cons h with rfl | h
      · exact .inl rfl
      · exact .inr h
    · split at h
      · rcases mem_cons h with rfl | h
        · exact .inl rfl
        · exact .inr (by simp [h])
      · rcases List.mem_cons.mp h with rfl | h
        · exact .inr (by simp)
        · exact (ih h).imp_right fun h => by simp [h]

/-- A write inside the address space keeps the canonical form. -/
theorem wf_write {m : Memory} (hm : m.wf = true) {addr : Nat} (ha : addr < Config.memSize) (v : Byte) :
    (m.write addr v).wf = true := by
  induction m with
  | nil => exact wf_cons_of_lt ha (by simp) rfl
  | cons c rest ih =>
    obtain ⟨k, x⟩ := c
    obtain ⟨hk, hx, hlt, hr⟩ := wf_cons.mp hm
    unfold Memory.write
    split
    · refine wf_cons_of_lt ha (fun c hc => ?_) hm
      rcases List.mem_cons.mp hc with rfl | hc
      · assumption
      · have := hlt c hc
        omega
    · split
      · subst addr
        exact wf_cons_of_lt hk hlt hr
      · refine wf_cons.mpr ⟨hk, hx, fun c hc => ?_, ih hr⟩
        rcases mem_write hc with h | h
        · omega
        · exact hlt c h

/-- Placing bytes keeps the canonical form: what would pass the last cell is left out. -/
theorem wf_place {m : Memory} (hm : m.wf = true) (addr : Nat) (bytes : List Byte) :
    (m.place addr bytes).wf = true := by
  induction bytes generalizing m addr with
  | nil => exact hm
  | cons v vs ih =>
    refine ih ?_ _
    split
    · exact wf_write hm ‹_› v
    · exact hm

/-- The bounds-checked write keeps the canonical form. -/
theorem wf_writeMem {m m' : Memory} (hm : m.wf = true) {addr : Int} {v : Byte}
    (h : writeMem m addr v = .ok m') : m'.wf = true := by
  unfold writeMem at h
  split at h
  · cases h
  · cases h
    refine wf_write hm ?_ v
    simp_all [outOfRange, Config.memSize]
    omega

end Sys2Proof.Machine.Memory
end

