-- ==== Sys2Proof/Laws/PerInstr.lean ====
section
/-! SUPPORT. Facts about every instruction as syntax, one lemma per constructor. -/

namespace Sys2Proof.Laws.Layout

/-- An instruction's encoding is as long as its width, and each of its register operands is one of its operand bytes
(R61, R64, R65). -/
def Statement (i : Instr) : Prop := (encode i).length = i.width ∧ ∀ r ∈ i.regOperands, r ∈ (encode i).tail

theorem halt : Statement .halt := ⟨rfl, by simp [Instr.regOperands]⟩

theorem ldi (a b : Byte) : Statement (.ldi a b) :=
  ⟨rfl, by simp [Instr.regOperands, encode, encodeWith, Instr.operands]⟩

theorem prn (a : Byte) : Statement (.prn a) :=
  ⟨rfl, by simp [Instr.regOperands, encode, encodeWith, Instr.operands]⟩

theorem mul (a b : Byte) : Statement (.mul a b) :=
  ⟨rfl, by simp [Instr.regOperands, encode, encodeWith, Instr.operands]⟩

theorem add (a b : Byte) : Statement (.add a b) :=
  ⟨rfl, by simp [Instr.regOperands, encode, encodeWith, Instr.operands]⟩

theorem cmp (a b : Byte) : Statement (.cmp a b) :=
  ⟨rfl, by simp [Instr.regOperands, encode, encodeWith, Instr.operands]⟩

theorem push (a : Byte) : Statement (.push a) :=
  ⟨rfl, by simp [Instr.regOperands, encode, encodeWith, Instr.operands]⟩

theorem pop (a : Byte) : Statement (.pop a) :=
  ⟨rfl, by simp [Instr.regOperands, encode, encodeWith, Instr.operands]⟩

theorem call (a : Byte) : Statement (.call a) :=
  ⟨rfl, by simp [Instr.regOperands, encode, encodeWith, Instr.operands]⟩

theorem ret : Statement .ret := ⟨rfl, by simp [Instr.regOperands]⟩

theorem jmp (a : Byte) : Statement (.jmp a) :=
  ⟨rfl, by simp [Instr.regOperands, encode, encodeWith, Instr.operands]⟩

theorem jeq (a : Byte) : Statement (.jeq a) :=
  ⟨rfl, by simp [Instr.regOperands, encode, encodeWith, Instr.operands]⟩

theorem jne (a : Byte) : Statement (.jne a) :=
  ⟨rfl, by simp [Instr.regOperands, encode, encodeWith, Instr.operands]⟩

end Sys2Proof.Laws.Layout
end

