-- ==== Sys2Proof/Machine/Assembler.lean ====
section
/-! DEFINITION. The written forms of a program: the names and aliases of R76, the assembler listing of R75, and the
program file of R77. None of them has an effect on the machine, which sees only bytes. Texts are lists of characters. -/

namespace Sys2Proof.Machine

/-! ### Words and numerals -/

/-- The pieces of a text between separators. -/
def splitText (isSep : Char → Bool) : List Char → List (List Char)
  | [] => [[]]
  | c :: cs =>
    if isSep c then [] :: splitText isSep cs
    else
      match splitText isSep cs with
      | [] => [[c]]
      | w :: ws => (c :: w) :: ws

/-- The words of a text: operands are separated by spaces (R75). -/
def words (text : List Char) : List (List Char) :=
  (splitText (fun c => c == ' ') text).filter fun w => !w.isEmpty

/-- The value of a digit below `base`. -/
def digitOf (base : Nat) (c : Char) : Option Nat :=
  let v :=
    if '0' ≤ c ∧ c ≤ '9' then c.toNat - 48
    else if 'a' ≤ c ∧ c ≤ 'f' then c.toNat - 87
    else if 'A' ≤ c ∧ c ≤ 'F' then c.toNat - 55
    else base
  if v < base then some v else none

/-- A numeral in `base`, most significant digit first; the empty text is none. -/
def numeral (base : Nat) : List Char → Option Nat
  | [] => none
  | cs => cs.foldl (fun acc c => do
      let n ← acc
      let d ← digitOf base c
      some (base * n + d)) (some 0)

/-! ### Names (R76) -/

/-- The canonical mnemonic first, then its aliases (R76). -/
def mnemonicNames : Mnemonic → List String
  | .halt => ["HALT", "HLT"]
  | .ldi => ["LDI", "LOAD_IMMEDIATE"]
  | .prn => ["PRN", "PRINT"]
  | .mul => ["MUL", "MULTIPLY"]
  | .add => ["ADD"]
  | .cmp => ["CMP", "COMPARE"]
  | .push => ["PUSH"]
  | .pop => ["POP"]
  | .call => ["CALL"]
  | .ret => ["RET", "RETURN"]
  | .jmp => ["JMP", "JUMP"]
  | .jeq => ["JEQ", "JUMP_IF_EQUAL"]
  | .jne => ["JNE", "JUMP_IF_NOT_EQUAL"]

/-- The instruction that a word names (R76). -/
def mnemonicOfName (word : List Char) : Option Mnemonic :=
  Mnemonic.all.find? fun m => (mnemonicNames m).any fun name => name.toList == word

/-! ### The assembler listing (R75) -/

/-- What an operand position holds (R65). -/
inductive OperandKind where
  | register
  | literal
  deriving DecidableEq, Repr

/-- The kinds of an instruction's operands, in order (R65). -/
def operandKinds : Mnemonic → List OperandKind
  | .halt | .ret => []
  | .ldi => [.register, .literal]
  | .prn | .push | .pop | .call | .jmp | .jeq | .jne => [.register]
  | .mul | .add | .cmp => [.register, .register]

/-- An operand as written: `R<n>`, a decimal or `0x` literal, or a label's name (R75). -/
inductive AsmOperand where
  | register (n : Nat)
  | literal (n : Nat)
  | label (name : List Char)
  deriving DecidableEq, Repr

/-- One statement of a listing: the labels before it and the instruction, if there is one (R75). -/
structure AsmStatement where
  labels : List (List Char)
  body : Option (Mnemonic × List AsmOperand)
  deriving DecidableEq, Repr

/-- Why a listing is no program. -/
inductive AsmError where
  | unknownMnemonic (word : List Char)
  /-- Too few or too many operands, a register where a literal stands or the reverse, or a value above 255. -/
  | badOperands (m : Mnemonic)
  | undefinedLabel (name : List Char)
  deriving DecidableEq, Repr

/-- Read one operand (R75). A word that is neither a register nor a numeral is a label's name. -/
def parseOperand (word : List Char) : AsmOperand :=
  match word with
  | 'R' :: digits =>
    match numeral 10 digits with
    | some n => .register n
    | none => .label word
  | '0' :: 'x' :: digits =>
    match numeral 16 digits with
    | some n => .literal n
    | none => .label word
  | _ =>
    match numeral 10 word with
    | some n => .literal n
    | none => .label word

/-- Read the words of one statement: first any labels `name:`, then a mnemonic and its operands (R75). The square brackets
around R75's quoted program are no part of a listing: a word that holds one, like any other unknown word in the mnemonic's
place, is an unknown mnemonic (DESIGN CHOICE, log 13, safe). -/
def parseStatement : List (List Char) → Except AsmError AsmStatement
  | [] => .ok { labels := [], body := none }
  | w :: ws =>
    if w.getLast? = some ':' then do
      let st ← parseStatement ws
      .ok { st with labels := w.dropLast :: st.labels }
    else
      match mnemonicOfName w with
      | none => .error (.unknownMnemonic w)
      | some m => .ok { labels := [], body := some (m, ws.map parseOperand) }

/-- Read a listing: its statements are separated by `;` or new lines (R75). -/
def parseListing (text : List Char) : Except AsmError (List AsmStatement) :=
  (splitText (fun c => c == ';' || c == '\n') text).mapM fun st => parseStatement (words st)

/-- The address of every label, the first statement being at `addr`: a label stands for the address of the next
instruction (R75). A label with no instruction after it stands for the address after the last one, and a label defined
more than once is listed once for each definition, in the listing's order (DESIGN CHOICE, log 13, safe). -/
def labelAddresses (addr : Nat) : List AsmStatement → List (List Char × Nat)
  | [] => []
  | st :: rest =>
    let width := match st.body with
      | none => 0
      | some (m, _) => 1 + m.operandCount
    st.labels.map (fun name => (name, addr)) ++ labelAddresses (addr + width) rest

/-- The byte of an operand in a position of a given kind. A label is used only as a literal (R75). Of a label that a
listing defines more than once the first definition counts, since R75 does not say which (DESIGN CHOICE, log 13, safe). -/
def operandByte (m : Mnemonic) (table : List (List Char × Nat)) (kind : OperandKind) (o : AsmOperand) :
    Except AsmError Byte :=
  let value : Except AsmError Nat :=
    match kind, o with
    | .register, .register n => .ok n
    | .literal, .literal n => .ok n
    | .literal, .label name =>
      match table.lookup name with
      | some addr => .ok addr
      | none => .error (.undefinedLabel name)
    | _, _ => .error (.badOperands m)
  match value with
  | .error e => .error e
  | .ok n => if n < 256 then .ok (BitVec.ofNat 8 n) else .error (.badOperands m)

/-- The bytes of one statement (R78). -/
def assembleStatement (table : List (List Char × Nat)) (st : AsmStatement) : Except AsmError (List Byte) :=
  match st.body with
  | none => .ok []
  | some (m, ops) =>
    if ops.length ≠ (operandKinds m).length then .error (.badOperands m)
    else do
      let bytes ← ((operandKinds m).zip ops).mapM fun p => operandByte m table p.1 p.2
      .ok (opcodeMap m :: bytes)

/-- Assemble a listing from address 0 on (R75, R166). -/
def assemble (text : List Char) : Except AsmError (List Byte) := do
  let sts ← parseListing text
  let parts ← sts.mapM (assembleStatement (labelAddresses 0 sts))
  .ok parts.flatten

/-! ### The program file (R77) -/

/-- A byte's line in the program file: eight characters `0` or `1`, most significant bit first (R77). -/
def byteLine (v : Byte) : List Char :=
  [7, 6, 5, 4, 3, 2, 1, 0].map fun k => if v.getLsbD k then '1' else '0'

/-- Why a line of a program file is no data line. -/
inductive FileError where
  | badLine (line : List Char)
  deriving DecidableEq, Repr

/-- Spaces, tabs and carriage returns around a line's data are dropped (DESIGN CHOICE, log 14, safe). -/
def trimLine (line : List Char) : List Char :=
  let blankChar : Char → Bool := fun c => c == ' ' || c == '\t' || c == '\r'
  ((line.dropWhile blankChar).reverse.dropWhile blankChar).reverse

/-- Read one line: `#` starts a comment; a blank or comment-only line gives no byte; a data line is exactly eight
binary digits (R77). -/
def parseFileLine (line : List Char) : Except FileError (Option Byte) :=
  let data := trimLine (line.takeWhile fun c => c != '#')
  if data.isEmpty then .ok none
  else if data.length ≠ 8 then .error (.badLine line)
  else
    match numeral 2 data with
    | none => .error (.badLine line)
    | some n => .ok (some (BitVec.ofNat 8 n))

/-- The bytes of a program file, in file order (R77, R166). -/
def parseProgramFile (text : List Char) : Except FileError (List Byte) := do
  let found ← (splitText (fun c => c == '\n') text).mapM parseFileLine
  .ok (found.filterMap id)

end Sys2Proof.Machine
end

