-- ==== Sys2Proof/Tests/Slice0.lean ====
section
/-! SUPPORT. Tests, with expected results from spec/ (V<n>: 95_test_vectors.md part 2; S<n>: part 1), the smoke tests of
WellFormed, and for each statement with hypotheses a witness that meets them. -/

namespace Sys2Proof.Tests

open Sys2Proof Sys2Proof.Machine

/-! ### Helpers -/

/-- The next state of an outcome, if it has one. -/
def nextOf : Host.Outcome State Fault Refusal → Option State
  | .next t => some t
  | .fault _ => none
  | .refused _ => none

theorem eq_next {o : Host.Outcome State Fault Refusal} {t : State} (h : nextOf o = some t) : o = .next t := by
  cases o <;> simp_all [nextOf]

/-- The state after reset with `PC = p` and bytes placed from `p` on. -/
def atPc (p : Byte) (bytes : List Byte) : State :=
  { State.reset with pc := p, mem := Memory.place [] p.toNat bytes }

/-- A state with some registers written. -/
def withRegs (s : State) (rs : List (Fin 8 × Byte)) : State := rs.foldl (fun s r => s.writeReg r.1 r.2) s

/-- One step, then a look at the next state. -/
def look {α : Type} (s : State) (f : State → α) : Option α := (nextOf (step s)).map f

/-- The error outcome of a record with these fields. -/
def err (cause : ErrorCause) (pc opcode : Byte) : RunOutcome := .error { cause := cause, pc := pc, opcode := opcode }

/-! ### WellFormed: an ill-formed term for each check -/

/-- R17: R9 does not exist, as the first operand. -/
theorem test_wellFormed_refuses_first_register : Instr.wellFormed (.ldi 9 5) = false := by decide
/-- R17: nor as the second; LDI's literal is no register. -/
theorem test_wellFormed_refuses_second_register :
    Instr.wellFormed (.cmp 0 200) = false ∧ Instr.wellFormed (.cmp 0 7) = true ∧ Instr.wellFormed (.ldi 0 200) = true := by
  decide

/-- R63, first constraint: HALT's opcode announcing one operand. -/
theorem test_map_refuses_count :
    OpcodeMap.countsMatch (fun m => if m = .halt then 0x41 else opcodeMap m) = false := by decide
/-- R63, second constraint: JMP without its bit 4. -/
theorem test_map_refuses_ownership :
    OpcodeMap.ownershipMatches (fun m => if m = .jmp then 0x44 else opcodeMap m) = false := by decide
/-- R63, third constraint: PUSH and POP with one opcode. -/
theorem test_map_refuses_repeat :
    OpcodeMap.distinct (fun m => if m = .push then 0x46 else opcodeMap m) = false := by decide
/-- R63, fourth constraint: bits 7:6 = 3. -/
theorem test_map_refuses_count_three :
    OpcodeMap.noCountThree (fun m => if m = .ldi then 0xC2 else opcodeMap m) = false := by decide

/-! ### Decoding: each word bit by bit from R64 and R66 -/

/-- What decodes from a byte sequence. -/
def decoded (bytes : List Byte) : Option Instr := (decode bytes).toOption.map (·.1)

theorem test_decode_halt : decoded [0b00000001] = some .halt := by decide
theorem test_decode_ldi : decoded [0b10000010, 0b00000000, 0b00001000] = some (.ldi 0 8) := by decide
theorem test_decode_prn : decoded [0b01000111, 0b00000101] = some (.prn 5) := by decide
theorem test_decode_mul : decoded [0b10100010, 0b00000000, 0b00000001] = some (.mul 0 1) := by decide
theorem test_decode_add : decoded [0b10100000, 0b00000111, 0b00000001] = some (.add 7 1) := by decide
theorem test_decode_cmp : decoded [0b10100111, 0b00000000, 0b11001000] = some (.cmp 0 200) := by decide
theorem test_decode_push : decoded [0b01000101, 0b00000010] = some (.push 2) := by decide
theorem test_decode_pop : decoded [0b01000110, 0b00000111] = some (.pop 7) := by decide
theorem test_decode_call : decoded [0b01010000, 0b00000001] = some (.call 1) := by decide
theorem test_decode_ret : decoded [0b00010001] = some .ret := by decide
theorem test_decode_jmp : decoded [0b01010100, 0b00000010] = some (.jmp 2) := by decide
theorem test_decode_jeq : decoded [0b01010101, 0b00000011] = some (.jeq 3) := by decide
theorem test_decode_jne : decoded [0b01010110, 0b00000011] = some (.jne 3) := by decide
/-- R69, R70: 0x00, 0xC2 and LS-8's SUB are illegal. -/
theorem test_decode_refuses : decoded [0x00] = none ∧ decoded [0xC2, 0, 0] = none ∧ decoded [0xA1, 0, 0] = none := by
  decide
/-- R78's example. -/
theorem test_encode_ldi : encode (.ldi 0 8) = [0x82, 0x00, 0x08] := by decide
/-- How many opcodes are registered among the 64 from `base` on. -/
def registeredFrom (base : Nat) : Nat :=
  ((List.range 64).filter fun n => (lookup (BitVec.ofNat 8 (base + n))).isSome).length

/-- R66, R69: by operand count 2, 7, 4 and none, so 13 of the 256 bytes are registered. -/
theorem test_registered_counts :
    registeredFrom 0 = 2 ∧ registeredFrom 64 = 7 ∧ registeredFrom 128 = 4 ∧ registeredFrom 192 = 0 := by decide

/-! ### One step each -/

/-- V1. -/
theorem test_halt : look (atPc 11 [0x01]) (fun t => (t.halted, t.pc, t.outcome)) = some (true, 12, .halted) := by decide
/-- V3. -/
theorem test_halt_at_254 : look (atPc 254 [0x01]) (fun t => (t.halted, t.outcome)) =
    some (false, err (.addressOutOfRange .memory 256) 254 0x01) := by decide
/-- V6. -/
theorem test_ldi_r7 : look (atPc 0 [0x82, 7, 0]) (fun t => (t.regs[7], t.sp, t.pc)) = some (0, 0xF4, 3) := by decide
/-- V9. -/
theorem test_ldi_at_253 : look (atPc 253 [0x82, 1, 7]) (fun t => (t.regs[1], t.outcome)) =
    some (0, err (.addressOutOfRange .memory 256) 253 0x82) := by decide
/-- V10. -/
theorem test_prn : look (withRegs (atPc 0 [0x47, 0]) [(0, 72)]) (fun t => (t.out, t.outputText, t.pc)) =
    some ([72], [0x37, 0x32, 0x0A], 2) := by decide
/-- V13. -/
theorem test_prn_bad_register : look (atPc 0 [0x47, 8]) (fun t => (t.out, t.outcome)) =
    some ([], err (.addressOutOfRange .register 8) 0 0x47) := by decide
/-- V20. -/
theorem test_mul_wraps : look (withRegs (atPc 0 [0xA2, 0, 1]) [(0, 200), (1, 2)])
    (fun t => (t.regs[0], t.regs[1], t.fl, t.pc)) = some (144, 2, 0, 3) := by decide
/-- V25. -/
theorem test_mul_same_register : look (withRegs (atPc 0 [0xA2, 0, 0]) [(0, 15)]) (fun t => t.regs[0]) = some 225 := by
  decide
/-- V28. -/
theorem test_add_wraps : look (withRegs (atPc 0 [0xA0, 0, 1]) [(0, 200), (1, 100)])
    (fun t => (t.regs[0], t.regs[1])) = some (44, 100) := by decide
/-- V43. -/
theorem test_add_checks_a_first : look (atPc 0 [0xA0, 8, 9]) (·.outcome) =
    some (err (.addressOutOfRange .register 8) 0 0xA0) := by decide
/-- V37. -/
theorem test_cmp_unsigned : look (withRegs (atPc 0 [0xA7, 0, 1]) [(0, 0), (1, 255)]) (·.fl) = some 0x04 := by decide
/-- V40. -/
theorem test_cmp_replaces : look { withRegs (atPc 0 [0xA7, 0, 1]) [(0, 9), (1, 9)] with fl := 0x04 } (·.fl) =
    some 0x01 := by decide
/-- V50. -/
theorem test_push : look (withRegs (atPc 0 [0x45, 0]) [(0, 5)]) (fun t => (t.sp, t.mem.read 0xF3, t.pc)) =
    some (0xF3, 5, 2) := by decide
/-- V52. -/
theorem test_push_at_zero : look { withRegs (atPc 8 [0x45, 2]) [(2, 9)] with sp := 0 }
    (fun t => (t.sp, t.mem, t.outcome)) =
    some (0, [(8, 0x45), (9, 2)], err (.addressOutOfRange .memory (-1)) 8 0x45) := by decide
/-- V58. -/
theorem test_pop_r7 : look { atPc 0 [0x46, 7] with sp := 0xF3, mem := [(0, 0x46), (1, 7), (0xF3, 0x10)] }
    (fun t => (t.regs[7], t.sp, t.mem.read 0xF3)) = some (0x10, 0xF4, 0x10) := by decide
/-- V56. -/
theorem test_pop_at_255 : look { atPc 0 [0x46, 1] with sp := 0xFF } (fun t => (t.regs[1], t.outcome)) =
    some (0, err (.addressOutOfRange .memory 256) 0 0x46) := by decide
/-- V60. -/
theorem test_call : look (withRegs (atPc 6 [0x50, 1]) [(1, 11)]) (fun t => (t.sp, t.mem.read 0xF3, t.pc)) =
    some (0xF3, 8, 11) := by decide
/-- V62. -/
theorem test_call_at_zero : look { withRegs (atPc 6 [0x50, 1]) [(1, 11)] with sp := 0 } (fun t => (t.pc, t.outcome)) =
    some (6, err (.addressOutOfRange .memory (-1)) 6 0x50) := by decide
/-- V64. -/
theorem test_ret : look { atPc 0 [] with sp := 0xF3, mem := [(0, 0x11), (0xF3, 8)] } (fun t => (t.pc, t.sp)) =
    some (8, 0xF4) := by decide
/-- V65. -/
theorem test_ret_at_255 : look { atPc 0 [0x11] with sp := 0xFF } (·.outcome) =
    some (err (.addressOutOfRange .memory 256) 0 0x11) := by decide
/-- V67. -/
theorem test_jmp : look (withRegs (atPc 0 [0x54, 2]) [(2, 0x10)]) (·.pc) = some 0x10 := by decide
/-- V69. -/
theorem test_jeq_taken : look { withRegs (atPc 9 [0x55, 3]) [(3, 20)] with fl := 0x01 } (·.pc) = some 20 := by decide
/-- V76. -/
theorem test_jeq_bad_register_not_taken : look (atPc 0 [0x55, 9]) (·.outcome) =
    some (err (.addressOutOfRange .register 9) 0 0x55) := by decide
/-- V73. -/
theorem test_jne_taken : look { withRegs (atPc 20 [0x56, 3]) [(3, 12)] with fl := 0x04 } (·.pc) = some 12 := by decide
/-- V74. -/
theorem test_jne_not_taken : look { withRegs (atPc 20 [0x56, 3]) [(3, 12)] with fl := 0x01 } (·.pc) = some 22 := by
  decide
/-- V80. -/
theorem test_decodeError : look (atPc 0 [0xFF]) (·.outcome) = some (err .decodeError 0 0xFF) := by decide
/-- V83. -/
theorem test_candidate_read_before_dispatch : look (atPc 254 [0x00]) (·.outcome) =
    some (err (.addressOutOfRange .memory 256) 254 0x00) := by decide
/-- R153. -/
theorem test_no_step_from_halted : nextOf (step { State.reset with halted := true, outcome := .halted }) = none := by
  decide
/-- R146: a request that is none of the three. -/
theorem test_alu_other : (match alu (.other "SUB") 0 1 State.reset with
    | .ok _ => none
    | .error c => some c) = some (.unsupportedAluOperation (.other "SUB")) := by decide

/-! ### The host's operations and the written forms -/

/-- R34, R166: two bytes loaded from address 0. -/
theorem test_loadProgram : (match Session.construct.loadProgram [0x45, 0x02] with
    | .next h => some h.machine.mem
    | .fault _ => none
    | .refused _ => none) = some [(0, 0x45), (1, 0x02)] := by decide
/-- R37: 255 prints as `255`, 0 as `0`. -/
theorem test_decimalText : decimalText 255 = [0x32, 0x35, 0x35] ∧ decimalText 0 = [0x30] := by decide
/-- S6's notation, with the bytes of P1. -/
theorem test_assemble : (assemble "LDI R0 8; LDI R1 9; MUL R0 R1; PRINT R0; HALT".toList).toOption =
    some [0x82, 0x00, 0x08, 0x82, 0x01, 0x09, 0xA2, 0x00, 0x01, 0x47, 0x00, 0x01] := by decide
/-- R78's three lines of a program file, with a comment and a blank line (R77). -/
theorem test_program_file : (parseProgramFile "10000010 # LDI R0 8\n\n00000000\n00001000\n".toList).toOption =
    some [0x82, 0x00, 0x08] := by decide

/-! ### Witnesses: each statement's hypotheses are met together -/

/-- A legal map other than the decided one: PUSH and POP exchanged. -/
def exchanged : OpcodeMap := fun m => if m = .push then 0x46 else if m = .pop then 0x45 else opcodeMap m

/-- A running machine at a valid instruction. -/
def ready (bytes : List Byte) : State := withRegs (atPc 0 bytes) [(0, 5), (1, 3)]

theorem witness_EncodeInvertsDecode :
    ∃ bytes i rest, decode bytes = .ok (i, rest) := ⟨[0x82, 0x00, 0x08, 0x11], .ldi 0 8, [0x11], rfl⟩

theorem witness_EveryLegalOpcodeMapRoundTrips : exchanged.wellFormed = true ∧ opcodeMap.wellFormed = true := by decide

theorem witness_DisassemblyRecoversProgram : ∀ m, opcodeMap m ≠ 0x00 := by
  intro m
  cases m <;> decide

theorem witness_InstructionIsOpcodeAndCountedOperands :
    (atPc 253 [0x47, 0x00]).isRunning ∧ (atPc 253 [0x47, 0x00]).pc.toNat ≤ 253 ∧
      ∀ k (h : k < (encode (.prn 0)).length), (atPc 253 [0x47, 0x00]).mem.read (253 + k) = (encode (.prn 0))[k] :=
  ⟨rfl, by decide, by decide⟩

theorem witness_DecoderAttributesAreOpcodeBits : lookup 0x82 = some .ldi := by decide

theorem witness_StepRunsDecodedInstruction :
    (ready [0x82, 0x00, 0x08]).isRunning ∧ (ready [0x82, 0x00, 0x08]).pc.toNat ≤ 253 ∧
      decode [0x82, 0x00, 0x08] = .ok (.ldi 0 8, []) := ⟨rfl, by decide, rfl⟩

/-- One state for each outcome of the statement's clauses. -/
theorem witness_StepEnabledExactlyWhileRunning :
    (∃ t, step (ready [0x01]) = .next t) ∧ (ready [0x01]).outcome = .running ∧
      ({ State.reset with outcome := .halted } : State).outcome = .halted ∧
      ({ State.reset with outcome := err .decodeError 0 0 } : State).outcome = err .decodeError 0 0 :=
  ⟨⟨_, rfl⟩, rfl, rfl, rfl⟩

/-- Both addresses of the clause. -/
theorem witness_CandidateReadsRaiseAtTopOfMemory :
    (atPc 254 []).isRunning ∧ 254 ≤ (atPc 254 []).pc.toNat ∧ (atPc 255 []).isRunning ∧ 254 ≤ (atPc 255 []).pc.toNat :=
  ⟨rfl, by decide, rfl, by decide⟩

/-- At the last address that a step can dispatch at. -/
theorem witness_UnregisteredOpcodeRaisesDecodeError :
    (atPc 253 [0x00]).isRunning ∧ (atPc 253 [0x00]).pc.toNat ≤ 253 ∧
      ∀ m, opcodeMap m ≠ (atPc 253 [0x00]).mem.read (atPc 253 [0x00]).pc.toNat := by
  refine ⟨rfl, by decide, fun m => ?_⟩
  cases m <;> decide

theorem witness_RaisingStepChangesOnlyTheOutcome :
    ∃ t record, step (atPc 0 [0xFF]) = .next t ∧ t.outcome = .error record :=
  ⟨{ atPc 0 [0xFF] with outcome := err .decodeError 0 0xFF }, _, eq_next (by decide), rfl⟩

/-- Each of the statement's cases arises. -/
theorem witness_StepRaisesOnlyTheListedCauses :
    look (atPc 255 []) (·.outcome) = some (err (.addressOutOfRange .memory 256) 255 0) ∧
    look (atPc 253 [0xC2]) (·.outcome) = some (err .decodeError 253 0xC2) ∧
    look (atPc 0 [0x45, 8]) (·.outcome) = some (err (.addressOutOfRange .register 8) 0 0x45) ∧
    look { atPc 9 [0x50, 7] with sp := 0 } (·.outcome) = some (err (.addressOutOfRange .memory (-1)) 9 0x50) ∧
    look { atPc 0 [0x11] with sp := 255 } (·.outcome) = some (err (.addressOutOfRange .memory 256) 0 0x11) ∧
    look (atPc 253 [0xA7, 0, 7]) (·.outcome) = some (err (.addressOutOfRange .memory 256) 253 0xA7) := by decide

theorem witness_RegisterOperandsAreCheckedFirst :
    (Instr.regOperands (.add 7 8)).find? (fun r => 8 ≤ r.toNat) = some 8 ∧
      (Instr.regOperands (.pop 255)).find? (fun r => 8 ≤ r.toNat) = some 255 := by decide

theorem witness_StackBoundsRaise :
    Instr.wellFormed (.push 7) = true ∧ Instr.mnemonic (.push 7) = .push ∧ Instr.mnemonic (.call 7) = .call ∧
      ({ State.reset with sp := 0 } : State).sp.toNat = 0 ∧
      Instr.wellFormed .ret = true ∧ Instr.mnemonic .ret = .ret ∧ Instr.mnemonic (.pop 7) = .pop ∧
      ({ State.reset with sp := 255 } : State).sp.toNat = 255 := by decide

/-- LDI at 253 is the one a step can reach; PRN at 254 and PUSH at 254 are not reached by a step. -/
theorem witness_AdvancePastTopRaisesAndCommitsNothing :
    Instr.wellFormed (.ldi 7 0) = true ∧ (Instr.mnemonic (.ldi 7 0)).pcOwned = false ∧
      255 < (atPc 253 []).pc.toNat + Instr.width (.ldi 7 0) ∧
      (Instr.mnemonic (.push 0)).pcOwned = false ∧ (atPc 254 []).sp.toNat ≠ 0 ∧ (atPc 254 []).sp.toNat ≠ 255 ∧
      255 < (atPc 254 []).pc.toNat + Instr.width (.push 0) := by decide

theorem witness_HaltStopsTheMachine : (atPc 254 [0x01]).pc.toNat + 1 ≤ 255 := by decide

/-- The last register and the last address of LDI, MUL, ADD and CMP. -/
theorem witness_LdiWritesTheLiteral : (7 : Byte).toNat < 8 ∧ (atPc 252 []).pc.toNat + 3 ≤ 255 := by decide

theorem witness_PrnAppendsToTheOutput : (7 : Byte).toNat < 8 ∧ (atPc 253 []).pc.toNat + 2 ≤ 255 := by decide

theorem witness_MulWritesTheProductModulo256 :
    (7 : Byte).toNat < 8 ∧ (0 : Byte).toNat < 8 ∧ (atPc 252 []).pc.toNat + 3 ≤ 255 := by decide

theorem witness_AddWritesTheSumModulo256 :
    (0 : Byte).toNat < 8 ∧ (7 : Byte).toNat < 8 ∧ (atPc 252 []).pc.toNat + 3 ≤ 255 := by decide

theorem witness_CmpReplacesFlags :
    (7 : Byte).toNat < 8 ∧ (7 : Byte).toNat < 8 ∧ (atPc 252 []).pc.toNat + 3 ≤ 255 := by decide

theorem witness_PushStoresBelowSp :
    (7 : Byte).toNat < 8 ∧ ({ atPc 253 [] with sp := 1 } : State).sp.toNat ≠ 0 ∧ (atPc 253 []).pc.toNat + 2 ≤ 255 := by
  decide

theorem witness_PopLoadsFromSp :
    (7 : Byte).toNat < 8 ∧ ({ atPc 253 [] with sp := 254 } : State).sp.toNat ≠ 255 ∧ (atPc 253 []).pc.toNat + 2 ≤ 255 := by
  decide

theorem witness_CallPushesReturnAddress :
    (7 : Byte).toNat < 8 ∧ ({ atPc 253 [] with sp := 255 } : State).sp.toNat ≠ 0 ∧ (atPc 253 []).pc.toNat + 2 ≤ 255 := by
  decide

theorem witness_RetPopsIntoPc : ({ atPc 253 [] with sp := 0 } : State).sp.toNat ≠ 255 := by decide

theorem witness_JmpSetsPc : (7 : Byte).toNat < 8 := by decide

theorem witness_JeqBranchesOnE : (7 : Byte).toNat < 8 ∧ (atPc 253 []).pc.toNat + 2 ≤ 255 := by decide

theorem witness_JneBranchesOnNotE : (0 : Byte).toNat < 8 ∧ (atPc 253 []).pc.toNat + 2 ≤ 255 := by decide

theorem witness_OtherInstructionsStoreNothing :
    ∃ t, Instr.mnemonic (.pop 0) ≠ .push ∧ Instr.mnemonic (.pop 0) ≠ .call ∧ exec (.pop 0) (ready []) = .next t :=
  ⟨_, by decide, by decide, rfl⟩

/-- PUSH and CALL that store, at the lowest and the highest SP that can, and a PUSH that has no target and raises. -/
theorem witness_PushAndCallStoreOnlyAtPushTarget :
    (ready []).mem.wf = true ∧
      (pushTarget { ready [] with sp := 1 }).toOption = some 0 ∧
      (look { ready [0x45, 0] with sp := 1 } (·.outcome)) = some .running ∧
      (pushTarget { ready [] with sp := 255 }).toOption = some 254 ∧
      (look { ready [0x50, 0] with sp := 255 } (·.outcome)) = some .running ∧
      (pushTarget { ready [] with sp := 0 }).toOption = none ∧
      (look { ready [0x45, 0] with sp := 0 } (·.outcome)) =
        some (err (.addressOutOfRange .memory (-1)) 0 0x45) := by decide

/-- First clause: LDI changes R7. Second clause: LDI R7 does not read R7, and PRN R0 does not read R1. -/
theorem witness_RegistersAreAccessedOnlyAsOperands :
    ((nextOf (exec (.ldi 7 1) (ready []))).map fun t => t.regs[7]) = some 1 ∧ (ready []).regs[7] ≠ 1 ∧
      (∀ r ∈ readsRegs (.ldi 7 1), r.toNat ≠ 7) ∧ (∀ r ∈ readsRegs (.prn 0), r.toNat ≠ 1) := by decide

theorem witness_FlagsChangeOnlyByCmp :
    ∃ t, exec (.cmp 0 1) (ready []) = .next t ∧ Instr.mnemonic (.cmp 0 1) = .cmp ∧
      (ready []).outcome = .running ∧ t.outcome = .running := ⟨_, rfl, rfl, rfl, rfl⟩

/-- Down to 0 and up to 255. -/
theorem witness_SpMovesOnlyByStackInstructions :
    ((nextOf (exec (.push 0) { ready [] with sp := 1 })).map (·.sp)) = some 0 ∧
      ((nextOf (exec .ret { ready [] with sp := 254 })).map (·.sp)) = some 255 := by decide

theorem witness_OutputHasOneValuePerPrn :
    ((nextOf (exec (.prn 0) (ready []))).map (·.out)) = some [5] ∧
      ((nextOf (exec (.prn 8) (ready []))).map (·.outcome)) = some (err (.addressOutOfRange .register 8) 0 0) := by
  decide

theorem witness_HaltFlagIsSetOnceAndForAll :
    ((nextOf (exec .halt (ready []))).map (·.halted)) = some true ∧ (ready []).halted = false ∧
      (ready []).pc.toNat + 1 ≤ 255 ∧
      (({ State.reset with halted := true, outcome := .halted } : State).halted = true ↔
        ({ State.reset with halted := true, outcome := .halted } : State).outcome = .halted) := by decide

theorem witness_OnlyHaltEndsTheRunAsHalted :
    ((ready [0x01]).halted = true ↔ (ready [0x01]).outcome = .halted) ∧ look (ready [0x01]) (·.outcome) = some .halted := by
  decide

theorem witness_PcOwningHandlersSetPc :
    ((nextOf (exec (.call 7) (ready []))).map (·.outcome)) = some .running ∧
      ((nextOf (exec .ret (ready []))).map (·.outcome)) = some .running ∧
      ((nextOf (exec (.jeq 0) { atPc 253 [] with fl := 0x01 })).map (·.outcome)) = some .running ∧
      ((nextOf (exec (.jne 0) { atPc 253 [] with fl := 0x01 })).map (·.pc)) = some 255 := by decide

theorem witness_LoopAdvancesByOpcodeWidth :
    look (atPc 252 [0x82, 0, 0]) (fun t => (t.pc, t.outcome)) = some (255, .running) ∧ 0x82 / 16 % 2 = 0 := by decide

theorem witness_PushThenPopMovesTheValue :
    (ready [0x45, 0, 0x46, 1]).mem.wf = true ∧ (ready [0x45, 0, 0x46, 1]).nextInstr = some (.push 0) ∧
      look (ready [0x45, 0, 0x46, 1]) (·.nextInstr) = some (some (.pop 1)) ∧
      (look (ready [0x45, 0, 0x46, 1]) fun t => look t (·.outcome)) = some (some .running) := by decide

/-- Nothing runs between the two: CALL to the RET at 9. -/
theorem witness_CallThenRetReturns :
    (withRegs (atPc 0 [0x50, 1, 0, 0, 0, 0, 0, 0, 0, 0x11]) [(1, 9)]).mem.wf = true ∧
      (withRegs (atPc 0 [0x50, 1, 0, 0, 0, 0, 0, 0, 0, 0x11]) [(1, 9)]).nextInstr = some (.call 1) ∧
      look (withRegs (atPc 0 [0x50, 1, 0, 0, 0, 0, 0, 0, 0, 0x11]) [(1, 9)]) (fun t => (t.outcome, t.nextInstr)) =
        some (.running, some .ret) ∧
      (look (withRegs (atPc 0 [0x50, 1, 0, 0, 0, 0, 0, 0, 0, 0x11]) [(1, 9)]) fun t => look t (·.outcome)) =
        some (some .running) := by decide

theorem witness_CompareThenBranch :
    (ready [0xA7, 0, 1, 0x55, 0]).nextInstr = some (.cmp 0 1) ∧
      look (ready [0xA7, 0, 1, 0x55, 0]) (·.nextInstr) = some (some (.jeq 0)) ∧
      (look (ready [0xA7, 0, 1, 0x55, 0]) fun t => look t (·.pc)) = some (some 5) ∧
      look (ready [0xA7, 0, 1, 0x56, 1]) (·.nextInstr) = some (some (.jne 1)) ∧
      (look (ready [0xA7, 0, 1, 0x56, 1]) fun t => look t (·.pc)) = some (some 3) := by decide

/-- The pushed byte falls on the next opcode, on operand_a and on operand_b. -/
theorem witness_StoredByteIsFetchedNext :
    (ready [0x45, 0]).mem.wf = true ∧ (ready [0x45, 0]).nextInstr = some (.push 0) ∧
      (look { ready [0x45, 0] with sp := 3 } fun t => (t.sp, t.pc, (fetch t).toOption.map (·.op))) =
        some (2, 2, some 5) ∧
      (look { ready [0x45, 0] with sp := 4 } fun t => (t.sp, t.pc, (fetch t).toOption.map (·.a))) =
        some (3, 2, some 5) ∧
      (look { ready [0x45, 0] with sp := 5 } fun t => (t.sp, t.pc, (fetch t).toOption.map (·.b))) =
        some (4, 2, some 5) := by decide

/-- V68. -/
theorem witness_JumpToItselfNeverEnds :
    (withRegs (atPc 4 [0x54, 0]) [(0, 4)]).outcome = .running ∧ (withRegs (atPc 4 [0x54, 0]) [(0, 4)]).halted = false ∧
      (withRegs (atPc 4 [0x54, 0]) [(0, 4)]).nextInstr = some (.jmp 0) ∧
      (withRegs (atPc 4 [0x54, 0]) [(0, 4)]).regs[0] = 4 := by decide

theorem witness_ReadGivesTheMostRecentWrite :
    ∀ w ∈ ([(255, 1), (0, 2), (255, 0)] : List (Nat × Byte)), w.1 < 256 := by decide

theorem witness_CanonicalMemoriesThatReadAlikeAreEqual :
    Memory.wf [(0, 1), (255, 2)] = true ∧ Memory.wf (Memory.write (Memory.write [] 255 2) 0 1) = true ∧
      Memory.write (Memory.write [] 255 2) 0 1 = [(0, 1), (255, 2)] := by decide

/-- The clauses of the checked read and write at their edges. -/
theorem witness_EveryAccessIsBoundsChecked :
    ((0 : Int) ≤ 0 ∧ (0 : Int) ≤ 255) ∧ ((0 : Int) ≤ 255 ∧ (255 : Int) ≤ 255) ∧ ((-1 : Int) < 0 ∨ (255 : Int) < -1) ∧
      ((256 : Int) < 0 ∨ (255 : Int) < 256) := by decide

/-- The clauses of a step at their edges: both candidate reads, a push at SP = 0, a pop at SP = 255, and a store at
address 0. -/
theorem witness_EveryAccessIsBoundsChecked_step :
    (atPc 255 []).outcome = .running ∧ 255 < (atPc 255 []).pc.toNat + 1 ∧ (atPc 255 []).pc.toNat + (1 - 1) ≤ 255 ∧
      (atPc 254 []).outcome = .running ∧ 255 < (atPc 254 []).pc.toNat + 2 ∧ (atPc 254 []).pc.toNat + (2 - 1) ≤ 255 ∧
      ({ atPc 253 [0x45, 7] with sp := 0 } : State).nextInstr = some (.push 7) ∧
      Instr.wellFormed (.push 7) = true ∧ ((0 : Byte).toNat : Int) - 1 < 0 ∧
      ({ atPc 253 [0x11] with sp := 255 } : State).nextInstr = some .ret ∧
      Instr.wellFormed .ret = true ∧ 255 < ((255 : Byte).toNat : Int) + 1 ∧
      look (withRegs { atPc 4 [0x45, 7] with sp := 1 } [(7, 9)]) (fun t => (t.sp, t.mem.read 0)) = some (0, 9) := by decide

/-- The host's error has the fields of R141 and R145 that are no step's (log 16). -/
theorem test_load_error_fields :
    Session.construct.load 256 0 = .fault (.addressOutOfRange .memory 256) ∧
      (ErrorCause.addressOutOfRange .memory 256).kind = .addressOutOfRange ∧ ErrorKind.addressOutOfRange.code = 1 ∧
      (ErrorCause.addressOutOfRange .memory 256).space = some .memory ∧
      (ErrorCause.addressOutOfRange .memory 256).value = some 256 ∧
      (ErrorCause.addressOutOfRange .memory 256).aluOp = none := ⟨rfl, rfl, rfl, rfl, rfl, rfl⟩

/-- The invariant holds of the machine with a program in memory, and it steps. -/
theorem witness_StepKeepsInvariant : (ready [0x45, 0]).Inv ∧ ∃ t, step (ready [0x45, 0]) = .next t := by
  refine ⟨⟨by decide, by unfold State.haltAgrees; decide, Or.inl (by decide), fun record h => ?_⟩, _, rfl⟩
  cases h

theorem witness_EveryRunOfALoadedProgramKeepsInvariant :
    ∃ host, Session.construct.loadProgram [0x45, 0x02, 0x01] = .next host := ⟨_, rfl⟩

/-- Every clause: a good load at both edges, both bad addresses, both bad values, and a session that has run. -/
theorem witness_LoadWritesOneByteBeforeRunOnly :
    Session.construct.runCalled = false ∧ ({ Session.construct with runCalled := true } : Session).runCalled = true ∧
      Session.construct.machine.mem.wf = true ∧
      ((0 : Int) ≤ 255 ∧ (255 : Int) ≤ 255) ∧ ((0 : Int) ≤ 0 ∧ (0 : Int) ≤ 255) ∧
      ((256 : Int) < 0 ∨ (255 : Int) < 256) ∧ ((-1 : Int) < 0 ∨ (255 : Int) < -1) := by decide

theorem witness_ProgramBytesLieFromAddressZero :
    (List.replicate 256 (0x01 : Byte)).length ≤ 256 ∧ 256 < (List.replicate 257 (0x01 : Byte)).length := by
  rw [List.length_replicate, List.length_replicate]
  decide

theorem witness_RunReturnsOnlyTerminalOutcomes :
    (((Session.run { machine := atPc 0 [0x01], runCalled := false } 1).map (·.1)) = some .halted) ∧
      ∃ t, step (atPc 0 [0x01]) = .next t := ⟨by decide, _, rfl⟩

/-- Zero, and a byte that is not. -/
theorem witness_OutputTextIsUnsignedDecimalLines : (0 : Byte) = 0 ∧ (100 : Byte) ≠ 0 := by decide

/-- A record of each cause. -/
theorem witness_ErrorRecordFields :
    (⟨.addressOutOfRange .memory (-1), 0, 0⟩ : ErrorRecord).cause = .addressOutOfRange .memory (-1) ∧
      (⟨.decodeError, 0, 0⟩ : ErrorRecord).cause = .decodeError ∧
      (⟨.unsupportedAluOperation (.other "SUB"), 0, 0⟩ : ErrorRecord).cause =
        .unsupportedAluOperation (.other "SUB") := by decide

theorem witness_AluWritesRegisterOrFlagsNeverBoth :
    8 ≤ (8 : Byte).toNat ∧ (7 : Byte).toNat < 8 ∧ 8 ≤ (255 : Byte).toNat ∧ (0 : Byte).toNat < 8 := by decide

theorem witness_NoInstructionRaisesUnsupportedAluOperation :
    (ready []).outcome = .running ∧
      ((nextOf (exec (.add 0 8) (ready []))).map (·.outcome)) = some (err (.addressOutOfRange .register 8) 0 0) := by
  decide

end Sys2Proof.Tests
end

section
/-! PROOFS. The opcode round trip under every opcode map that obeys R63. -/

namespace Sys2Proof

/-- R63's constraints include that the opcodes are pairwise distinct. -/
theorem OpcodeMap.distinct_of_wellFormed {map : OpcodeMap} (h : map.wellFormed = true) : map.distinct = true := by
  simp only [OpcodeMap.wellFormed, Bool.and_eq_true] at h
  obtain ⟨⟨⟨_, _⟩, hdistinct⟩, _⟩ := h
  exact hdistinct

/-- R63's third constraint says that the map is injective. -/
theorem OpcodeMap.injective_of_distinct {map : OpcodeMap} (h : map.distinct = true) : Function.Injective map := by
  intro m k hmk
  have hpair := List.all_eq_true.mp (List.all_eq_true.mp h m m.mem_all) k k.mem_all
  simpa [hmk] using hpair

/-- In an injective map the dispatch table finds each handler at its own opcode (R66). -/
theorem lookupWith_of_injective {map : OpcodeMap} (h : Function.Injective map) (m : Mnemonic) :
    lookupWith map (map m) = some m := by
  have hfound : (lookupWith map (map m)).isSome :=
    List.find?_isSome.mpr ⟨m, m.mem_all, beq_self_eq_true (map m)⟩
  obtain ⟨k, hk⟩ := Option.isSome_iff_exists.mp hfound
  have hop : map k = map m := by simpa using List.find?_some hk
  rw [hk, h hop]

/-- Decoding inverts encoding as soon as the dispatch table knows the instruction's handler by its opcode: the operand
count comes from the handler's row, so no other property of the map is used (R61, R67). -/
theorem decodeWith_encodeWith {map : OpcodeMap} {i : Instr}
    (h : lookupWith map (map i.mnemonic) = some i.mnemonic) (rest : List Byte) :
    decodeWith map (encodeWith map i ++ rest) = .ok (i, rest) := by
  simp only [encodeWith, List.cons_append, decodeWith, h]
  cases i <;> rfl

/-- Settles O3: a legal map is injective, so its dispatch table inverts it, and the operands follow the handler's row. -/
theorem everyLegalOpcodeMapRoundTrips : Obligations.EveryLegalOpcodeMapRoundTrips := by
  unfold Obligations.EveryLegalOpcodeMapRoundTrips
  refine ⟨by decide, fun map hmap i rest => decodeWith_encodeWith ?_ rest⟩
  have hinj := OpcodeMap.injective_of_distinct (OpcodeMap.distinct_of_wellFormed hmap)
  exact lookupWith_of_injective hinj i.mnemonic

end Sys2Proof
end

section
/-! PROOFS. What a completing instruction changes and what it leaves unchanged, one lemma per part of the state, and how
the outcome tells a completion from a raise. -/

namespace Sys2Proof.Machine

/-! ### Bytes -/

/-- A decrement of a pointer that is not 0 does not wrap (R50). -/
theorem toNat_sub_one_add_one {x : Byte} (h : x ≠ 0) : (x - 1).toNat + 1 = x.toNat := by bv_omega

/-- An increment of a pointer that is not 255 does not wrap (R50). -/
theorem toNat_add_one {x : Byte} (h : x ≠ 255) : (x + 1).toNat = x.toNat + 1 := by bv_omega

/-- The advanced PC, written as a sum of bytes (R88). -/
theorem ofNat_toNat_add (p : Byte) (n : Nat) : BitVec.ofNat 8 (p.toNat + n) = p + BitVec.ofNat 8 n := by
  rw [BitVec.ofNat_add, BitVec.ofNat_toNat, BitVec.setWidth_eq]

/-- A number up to 255 is the value of its byte (R8). -/
theorem toNat_ofNat_of_le {n : Nat} (h : n ≤ 255) : (BitVec.ofNat 8 n).toNat = n :=
  Nat.mod_eq_of_lt (Nat.lt_succ_of_le h)

/-- A comparison leaves exactly one of E, G and L (R111, R114). -/
theorem compareFlags_cases (va vb : Byte) :
    compareFlags va vb = 0x01 ∨ compareFlags va vb = 0x02 ∨ compareFlags va vb = 0x04 := by
  unfold compareFlags
  split
  · exact .inl rfl
  · split
    · exact .inr (.inl rfl)
    · exact .inr (.inr rfl)

/-! ### The effect of an instruction -/

/-- What an instruction leaves unchanged, by its mnemonic. -/
structure Frame (i : Instr) (s u : State) : Prop where
  mem : i.mnemonic ∉ [.push, .call] → u.mem = s.mem
  regs : i.mnemonic ∉ [.ldi, .mul, .add, .pop] → u.regs = s.regs
  sp : i.mnemonic ∉ [.push, .call, .pop, .ret] → u.sp = s.sp
  fl : i.mnemonic ≠ .cmp → u.fl = s.fl
  halted : i.mnemonic ≠ .halt → u.halted = s.halted
  outcome : u.outcome = s.outcome
  out : i.mnemonic ≠ .prn → u.out = s.out

/-- An effect touches only what its instruction owns. -/
theorem Effect.frame {i : Instr} {s u : State} (h : Effect i s u) : Frame i s u := by
  cases i with
  | halt | ret | jmp _ =>
    obtain ⟨_, rfl⟩ := h
    constructor <;> simp [Instr.mnemonic]
  | ldi _ _ | prn _ =>
    obtain ⟨_, _, rfl⟩ := h
    constructor <;> simp [Instr.mnemonic]
  | mul _ _ | add _ _ | cmp _ _ | push _ | pop _ | call _ =>
    obtain ⟨_, _, _, rfl⟩ := h
    constructor <;> simp [Instr.mnemonic]
  | jeq _ | jne _ =>
    obtain ⟨_, ⟨_, rfl⟩ | ⟨_, _, rfl⟩⟩ := h <;> constructor <;> simp [Instr.mnemonic]

/-- Memory after an effect: as before, or with one byte stored at SP - 1 (R44, R50). -/
theorem Effect.mem_cases {i : Instr} {s u : State} (h : Effect i s u) :
    u.mem = s.mem ∨ ∃ v, u.mem = s.mem.write (s.sp - 1).toNat v := by
  cases i with
  | push _ | call _ =>
    obtain ⟨_, _, _, rfl⟩ := h
    exact .inr ⟨_, rfl⟩
  | _ => exact .inl (h.frame.mem (by simp [Instr.mnemonic]))

/-- The register file after an effect: as before, or with `operand_a` of LDI, MUL, ADD or POP written (R20). -/
theorem Effect.regs_cases {i : Instr} {s u : State} (h : Effect i s u) :
    u.regs = s.regs ∨ ∃ (a : Byte) (w : Byte) (_ : a.toNat < Config.numRegs), u.regs = s.regs.set a.toNat w ∧
      (i = .pop a ∨ ∃ b, i = .ldi a b ∨ i = .mul a b ∨ i = .add a b) := by
  cases i with
  | ldi a b =>
    obtain ⟨ha, _, rfl⟩ := h
    exact .inr ⟨a, _, ha, rfl, .inr ⟨b, .inl rfl⟩⟩
  | mul a b =>
    obtain ⟨ha, _, _, rfl⟩ := h
    exact .inr ⟨a, _, ha, rfl, .inr ⟨b, .inr (.inl rfl)⟩⟩
  | add a b =>
    obtain ⟨ha, _, _, rfl⟩ := h
    exact .inr ⟨a, _, ha, rfl, .inr ⟨b, .inr (.inr rfl)⟩⟩
  | pop a =>
    obtain ⟨ha, _, _, rfl⟩ := h
    exact .inr ⟨a, _, ha, rfl, .inl rfl⟩
  | _ => exact .inl (h.frame.regs (by simp [Instr.mnemonic]))

/-- SP after an effect: as before, one lower after a push, one higher after a pop (R21, R50). -/
theorem Effect.sp_cases {i : Instr} {s u : State} (h : Effect i s u) :
    u.sp = s.sp ∨ ((i.mnemonic = .push ∨ i.mnemonic = .call) ∧ u.sp.toNat + 1 = s.sp.toNat) ∨
      ((i.mnemonic = .pop ∨ i.mnemonic = .ret) ∧ u.sp.toNat = s.sp.toNat + 1) := by
  cases i with
  | push _ | call _ =>
    obtain ⟨_, hs, _, rfl⟩ := h
    exact .inr (.inl ⟨by simp [Instr.mnemonic], toNat_sub_one_add_one hs⟩)
  | pop _ =>
    obtain ⟨_, hs, _, rfl⟩ := h
    exact .inr (.inr ⟨.inl rfl, toNat_add_one hs⟩)
  | ret =>
    obtain ⟨hs, rfl⟩ := h
    exact .inr (.inr ⟨.inr rfl, toNat_add_one hs⟩)
  | _ => exact .inl (h.frame.sp (by simp [Instr.mnemonic]))

/-- FL after a comparison is one flag, whatever it was before (R27, R114). -/
theorem Effect.fl_of_cmp {i : Instr} {s u : State} (h : Effect i s u) (hi : i.mnemonic = .cmp) :
    u.fl = 0x01 ∨ u.fl = 0x02 ∨ u.fl = 0x04 := by
  cases i with
  | cmp a b =>
    obtain ⟨_, _, _, rfl⟩ := h
    exact compareFlags_cases _ _
  | _ => cases hi

/-- HALT alone has the mnemonic of HALT. -/
theorem eq_halt_of_mnemonic {i : Instr} (hi : i.mnemonic = .halt) : i = .halt := by
  cases i with
  | halt => rfl
  | _ => cases hi

/-- The halt flag after HALT (R101). -/
theorem Effect.halted_of_halt {s u : State} (h : Effect .halt s u) : u.halted = true := by
  obtain ⟨_, rfl⟩ := h
  rfl

/-- A halt flag that an effect sets is HALT's (R28). -/
theorem Effect.eq_halt {i : Instr} {s u : State} (h : Effect i s u) (hs : s.halted = false)
    (hu : u.halted = true) : i = .halt := by
  refine eq_halt_of_mnemonic (by_contra fun hi => ?_)
  rw [h.frame.halted hi, hs] at hu
  cases hu

/-- No effect clears the halt flag (R28). -/
theorem Effect.keeps_halted {i : Instr} {s u : State} (h : Effect i s u) (hs : s.halted = true) :
    u.halted = true := by
  by_cases hi : i.mnemonic = .halt
  · obtain rfl := eq_halt_of_mnemonic hi
    exact h.halted_of_halt
  · rw [h.frame.halted hi, hs]

/-- The loop advances PC by the width after a handler that does not own PC, and never past 255 (R88). -/
theorem Effect.pc_toNat {i : Instr} {s u : State} (h : Effect i s u) (hi : i.mnemonic.pcOwned = false) :
    u.pc.toNat = s.pc.toNat + i.width := by
  cases i with
  | halt =>
    obtain ⟨hp, rfl⟩ := h
    exact toNat_ofNat_of_le hp
  | ldi _ _ | prn _ =>
    obtain ⟨_, hp, rfl⟩ := h
    exact toNat_ofNat_of_le hp
  | mul _ _ | add _ _ | cmp _ _ | push _ | pop _ =>
    obtain ⟨_, _, hp, rfl⟩ := h
    exact toNat_ofNat_of_le hp
  | _ => cases hi

/-! ### Completion and raise -/

/-- A raise leaves an error (R148). -/
theorem not_noError_raise (s : State) (c : ErrorCause) : ¬(raise s c).noError :=
  fun h => h _ rfl

/-- The step's last line makes no error (R90). -/
theorem noError_endStep {u : State} (h : u.noError) : (endStep u).noError := by
  intro record
  rw [endStep_outcome]
  split
  · simp
  · exact h record

/-- An instruction that leaves no error had its effect. -/
theorem effect_of_noError {i : Instr} {s t : State} (h : exec i s = .next t) (ht : t.noError) :
    ∃ u, Effect i s u ∧ t = endStep u := by
  obtain heff | ⟨c, _, rfl⟩ := exec_cases h
  · exact heff
  · exact absurd ht (not_noError_raise s c)

/-- An instruction that leaves an error where there was none raised. -/
theorem raises_of_not_noError {i : Instr} {s t : State} (hs : s.noError) (h : exec i s = .next t)
    (ht : ¬t.noError) : ∃ c, Raises i s c ∧ t = raise s c := by
  obtain ⟨u, hu, rfl⟩ | hraise := exec_cases h
  · refine absurd (noError_endStep fun record => ?_) ht
    rw [hu.frame.outcome]
    exact hs record
  · exact hraise

/-- An instruction that names only registers that exist has no bad one (R143). -/
theorem badReg_of_wellFormed {i : Instr} (h : i.wellFormed = true) : badReg i = none := by
  simpa [badReg, Instr.wellFormed, List.find?_eq_none] using h

end Sys2Proof.Machine
end

section
/-! PROOFS. The machine's invariant: it holds at construction, and a raise and a completion each keep it. -/

namespace Sys2Proof.Machine

/-- An instruction is at most three bytes wide (R61, R64). -/
theorem width_le (i : Instr) : i.width ≤ 3 := by
  cases i <;> simp [Instr.width, Instr.mnemonic, Mnemonic.operandCount]

/-- Where a step runs an instruction, PC at most 253, it can raise only with the causes of a step (R142, R143, R146). -/
theorem Raises.fromStep {i : Instr} {s : State} {c : ErrorCause} (h : Raises i s c) (hp : s.pc.toNat ≤ 253) :
    c.fromStep := by
  cases h with
  | register x hx =>
    have hge : 8 ≤ x.toNat := by simpa using List.find?_some hx
    have hlt := x.isLt
    simp only [ErrorCause.fromStep]
    omega
  | pushBound => exact .inl rfl
  | popBound => exact .inr rfl
  | advance =>
    have hw := width_le i
    simp only [ErrorCause.fromStep]
    omega

/-- A running machine's raise keeps the invariant (R91, R145, R148). -/
theorem State.Inv.raise {s : State} {c : ErrorCause} (hs : s.Inv) (hrun : s.outcome = .running)
    (hc : c.fromStep) : (Machine.raise s c).Inv where
  memory := hs.memory
  halt := by simpa [State.haltAgrees, hrun] using hs.halt
  flags := hs.flags
  error := by
    intro record hrecord
    cases hrecord
    exact ⟨rfl, rfl, hc⟩

/-- An effect keeps memory in its canonical form. -/
theorem Effect.keeps_wf {i : Instr} {s u : State} (h : Effect i s u) (hs : s.mem.wf = true) : u.mem.wf = true := by
  obtain hm | ⟨v, hm⟩ := h.mem_cases
  · rw [hm, hs]
  · rw [hm]
    exact Memory.wf_write hs (BitVec.isLt _) v

/-- An effect keeps FL legal (R26, R27). -/
theorem Effect.keeps_flagsLegal {i : Instr} {s u : State} (h : Effect i s u) (hs : s.flagsLegal) :
    u.flagsLegal := by
  by_cases hi : i.mnemonic = .cmp
  · exact .inr (h.fl_of_cmp hi)
  · rw [State.flagsLegal, h.frame.fl hi]
    exact hs

/-- A running machine's completed instruction keeps the invariant: the step's last line makes the halt flag and the
outcome agree, and there is no error (R90). -/
theorem Effect.inv_endStep {i : Instr} {s u : State} (h : Effect i s u) (hs : s.Inv)
    (hrun : s.outcome = .running) : (endStep u).Inv := by
  have hout : (endStep u).outcome = if u.halted then .halted else .running := by
    rw [endStep_outcome, h.frame.outcome, hrun]
  refine ⟨?_, ?_, ?_, fun record hrecord => ?_⟩
  · rw [endStep_mem]
    exact h.keeps_wf hs.memory
  · rw [State.haltAgrees, endStep_halted, hout]
    cases u.halted <;> simp
  · rw [State.flagsLegal, endStep_fl]
    exact h.keeps_flagsLegal hs.flags
  · rw [hout] at hrecord
    cases hh : u.halted <;> simp [hh] at hrecord

/-- Settles O50: a step is a raise with a step's cause or an instruction, which raises or completes; each keeps the
invariant. -/
theorem stepKeepsInvariant : Obligations.StepKeepsInvariant := by
  unfold Obligations.StepKeepsInvariant
  intro s t hs h
  obtain ⟨hrun, ⟨_, rfl⟩ | ⟨_, _, rfl⟩ | ⟨hp, i, _, hi⟩⟩ := step_cases h
  · exact hs.raise hrun (.inr rfl)
  · exact hs.raise hrun trivial
  · obtain ⟨u, hu, rfl⟩ | ⟨c, hc, rfl⟩ := exec_cases hi
    · exact hu.inv_endStep hs hrun
    · exact hs.raise hrun (hc.fromStep hp)

/-- Settles O48: each field at its value of R162; the register file is a copy of SP in R7 and 0 elsewhere. -/
theorem resetState : Obligations.ResetState := by
  unfold Obligations.ResetState
  exact ⟨fun _ => rfl, by decide, rfl, rfl, rfl, rfl, rfl, rfl⟩

/-- Settles O49: empty memory is canonical, and the machine runs with the halt flag and FL clear. -/
theorem resetSatisfiesInvariant : Obligations.ResetSatisfiesInvariant where
  memory := rfl
  halt := by simp [State.haltAgrees, State.reset]
  flags := .inl rfl
  error := fun _ hrecord => by cases hrecord

end Sys2Proof.Machine
end

section
/-! PROOFS. When the machine has a step, and what a step cannot do: move SP past its bounds, change a part of the state
that its instruction does not own, or go on after HALT. -/

namespace Sys2Proof.Machine

/-! ### Which step a machine has -/

/-- A halted machine has no step (R82, R153). -/
theorem step_of_halted {s : State} (h : s.outcome = .halted) : step s = .fault .haltedMachine := by
  simp [step, loopStep, h]

/-- A machine that raised has no step (R82, R153). -/
theorem step_of_error {s : State} {record : ErrorRecord} (h : s.outcome = .error record) :
    step s = .fault (.erroredMachine record) := by
  simp [step, loopStep, h]

/-- At PC = 254 and 255 a candidate read raises (R84). -/
theorem step_of_top {s : State} (h : s.outcome = .running) (hp : 253 < s.pc.toNat) :
    step s = .next (raise s (.addressOutOfRange .memory 256)) := by
  simp [step, loopStep, h, fetch_of_gt hp]

/-- Bytes that are no instruction raise DecodeError (R85). -/
theorem step_of_nextInstr_none {s : State} (h : s.outcome = .running) (hp : s.pc.toNat ≤ 253)
    (hi : s.nextInstr = none) : step s = .next (raise s .decodeError) := by
  rw [State.nextInstr] at hi
  simp [step, loopStep, h, fetch_of_le hp, hi]

/-- Only a running machine has a step (R82). -/
theorem running_of_step_next {s t : State} (h : step s = .next t) : s.outcome = .running :=
  (step_cases h).left

/-- A running machine has a step (R82). -/
theorem step_next_of_running {s : State} (h : s.outcome = .running) : ∃ t, step s = .next t := by
  by_cases hp : s.pc.toNat ≤ 253
  · cases hi : s.nextInstr with
    | none => exact ⟨_, step_of_nextInstr_none h hp hi⟩
    | some i =>
      rw [step_of_nextInstr h hp hi]
      exact exec_next i s
  · exact ⟨_, step_of_top h (by omega)⟩

/-- Settles O9: the outcome alone decides whether there is a step, and a step that is not there is a fault. -/
theorem stepEnabledExactlyWhileRunning : Obligations.StepEnabledExactlyWhileRunning := by
  unfold Obligations.StepEnabledExactlyWhileRunning
  intro s
  refine ⟨⟨fun ⟨_, ht⟩ => running_of_step_next ht, step_next_of_running⟩, step_of_halted, fun _ => step_of_error, ?_⟩
  intro r hr
  cases hout : s.outcome with
  | running =>
    obtain ⟨t, ht⟩ := step_next_of_running hout
    simp [ht] at hr
  | halted => simp [step_of_halted hout] at hr
  | error record => simp [step_of_error hout] at hr

/-! ### The stack pointer -/

/-- Settles O15: with its registers valid, an instruction at its SP bound raises before it writes. -/
theorem stackBoundsRaise : Obligations.StackBoundsRaise := by
  unfold Obligations.StackBoundsRaise
  intro i s hwf
  have hreg := badReg_of_wellFormed hwf
  refine ⟨fun hi hs => ?_, fun hi hs => ?_⟩
  · exact exec_of_raises (.pushBound hreg hi (BitVec.eq_of_toNat_eq hs))
  · exact exec_of_raises (.popBound hreg hi (BitVec.eq_of_toNat_eq hs))

/-- Settles O34: an effect moves SP by one or not at all, and a raise does not move it. -/
theorem spMovesOnlyByStackInstructions : Obligations.SpMovesOnlyByStackInstructions := by
  unfold Obligations.SpMovesOnlyByStackInstructions
  intro i s t h hne
  obtain ⟨u, hu, rfl⟩ | ⟨c, _, rfl⟩ := exec_cases h
  · rw [endStep_sp] at hne ⊢
    exact hu.sp_cases.resolve_left hne
  · exact absurd (raise_sp s c) hne

/-! ### FL, Out and PC -/

/-- Settles O33: only CMP's effect writes FL, and it writes one flag. -/
theorem flagsChangeOnlyByCmp : Obligations.FlagsChangeOnlyByCmp := by
  unfold Obligations.FlagsChangeOnlyByCmp
  intro i s t h
  refine ⟨fun hi => ?_, fun hi _ ht => ?_⟩
  · obtain ⟨u, hu, rfl⟩ | ⟨c, _, rfl⟩ := exec_cases h
    · rw [endStep_fl, hu.frame.fl hi]
    · rfl
  · obtain ⟨u, hu, rfl⟩ := effect_of_noError h ht
    rw [endStep_fl]
    exact hu.fl_of_cmp hi

/-- Settles O35: PRN's effect appends its register's value; a raise and every other effect leave Out alone. -/
theorem outputHasOneValuePerPrn : Obligations.OutputHasOneValuePerPrn := by
  unfold Obligations.OutputHasOneValuePerPrn
  refine ⟨rfl, fun i s t h hi => ?_, fun a s t h hs => ⟨fun ht => ?_, fun ht => ?_⟩⟩
  · obtain ⟨u, hu, rfl⟩ | ⟨c, _, rfl⟩ := exec_cases h
    · rw [endStep_out, hu.frame.out hi]
    · rfl
  · obtain ⟨u, ⟨ha, _, rfl⟩, rfl⟩ := effect_of_noError h ht
    exact ⟨ha, endStep_out _⟩
  · obtain ⟨c, _, rfl⟩ := raises_of_not_noError hs h ht
    rfl

/-- A handler whose opcode has bit 4 clear leaves PC to the loop (R63, R86). -/
theorem pcOwned_of_opcode (m : Mnemonic) : (opcodeMap m).toNat / 16 % 2 = 0 → m.pcOwned = false := by
  cases m <;> decide

/-- Bits 7:6 of a handler's opcode are its operand count (R63, R86). -/
theorem operandCount_of_opcode (m : Mnemonic) : (opcodeMap m).toNat / 64 = m.operandCount := by
  cases m <;> decide

/-- Settles O39: a step without an error completed an instruction, whose opcode's bits are its handler's attributes. -/
theorem loopAdvancesByOpcodeWidth : Obligations.LoopAdvancesByOpcodeWidth := by
  unfold Obligations.LoopAdvancesByOpcodeWidth
  intro s t h ht hop
  obtain ⟨_, ⟨_, rfl⟩ | ⟨_, _, rfl⟩ | ⟨_, i, hi, hexec⟩⟩ := step_cases h
  · exact absurd ht (not_noError_raise _ _)
  · exact absurd ht (not_noError_raise _ _)
  · obtain ⟨u, hu, rfl⟩ := effect_of_noError hexec ht
    have hmap : opcodeMap i.mnemonic = s.mem.read s.pc.toNat := opcodeMap_of_dispatch hi
    rw [← hmap] at hop ⊢
    rw [endStep_pc, hu.pc_toNat (pcOwned_of_opcode _ hop), operandCount_of_opcode, Instr.width, Nat.add_assoc]

/-! ### The halt flag -/

/-- Settles O36: HALT's effect sets the flag, no effect clears it, a raise leaves it, and a set flag means the outcome
Halted, from which there is no step. -/
theorem haltFlagIsSetOnceAndForAll : Obligations.HaltFlagIsSetOnceAndForAll := by
  unfold Obligations.HaltFlagIsSetOnceAndForAll
  refine ⟨rfl, fun i s t h hs ht => ?_, fun s hp => ?_, fun i s t h hs => ?_, fun s hagrees hs t ht => ?_⟩
  · obtain ⟨u, hu, rfl⟩ | ⟨c, _, rfl⟩ := exec_cases h
    · rw [endStep_halted] at ht
      exact hu.eq_halt hs ht
    · rw [raise_halted, hs] at ht
      cases ht
  · exact ⟨_, exec_of_effect ⟨hp, rfl⟩, endStep_halted _⟩
  · obtain ⟨u, hu, rfl⟩ | ⟨c, _, rfl⟩ := exec_cases h
    · rw [endStep_halted, hu.keeps_halted hs]
    · exact hs
  · rw [step_of_halted (hagrees.mp hs)] at ht
    cases ht

/-- Settles O37: a running machine's outcome becomes Halted only in the last line of a completed instruction, with the
flag set, which only HALT sets. -/
theorem onlyHaltEndsTheRunAsHalted : Obligations.OnlyHaltEndsTheRunAsHalted := by
  unfold Obligations.OnlyHaltEndsTheRunAsHalted
  intro s t hagrees h ht
  obtain ⟨hrun, ⟨_, rfl⟩ | ⟨_, _, rfl⟩ | ⟨_, i, hi, hexec⟩⟩ := step_cases h
  · cases ht
  · cases ht
  · have hs : s.halted = false := by simpa [hrun, State.haltAgrees] using hagrees
    obtain ⟨u, hu, rfl⟩ | ⟨c, _, rfl⟩ := exec_cases hexec
    · have hset : u.halted = true := by simpa [hu.frame.outcome, hrun] using ht
      rw [hi, hu.eq_halt hs hset]
    · cases ht

end Sys2Proof.Machine
end

section
/-! PROOFS. Registers are written only as `operand_a` of LDI, MUL, ADD and POP, and a register that an instruction does
not name as a source does not reach its result (R20). -/

namespace Sys2Proof.Machine

/-! ### A register written before the instruction

The run with register `k` changed starts in `s.writeReg k v`. -/

/-- A register operand that is not `k` reads as before. -/
theorem getElem_writeReg_of_ne {s : State} {k : Fin Config.numRegs} {v : Byte} {n : Nat} (hn : n < Config.numRegs)
    (h : n ≠ k) : (s.writeReg k v).regs[n] = s.regs[n] :=
  Vector.getElem_set_ne k.isLt hn (Ne.symm h)

/-- A later write either hides the write to `k` or leaves register `k` alone and commutes with it. -/
theorem set_writeReg_cases (s : State) (k : Fin Config.numRegs) (v : Byte) {n : Nat} (hn : n < Config.numRegs)
    (w : Byte) :
    (s.writeReg k v).regs.set n w = s.regs.set n w ∨
      ((s.regs.set n w)[k] = s.regs[k] ∧ (s.writeReg k v).regs.set n w = (s.regs.set n w).set k v) := by
  by_cases h : n = k
  · subst h
    exact .inl (Vector.set_set ..)
  · exact .inr ⟨Vector.getElem_set_ne hn k.isLt h, Vector.set_comm _ _ (Ne.symm h)⟩

/-- A raise does not look at the registers' values (R143, R147). -/
theorem Raises.writeReg {i : Instr} {s : State} {c : ErrorCause} (h : Raises i s c) (k : Fin Config.numRegs)
    (v : Byte) : Raises i (s.writeReg k v) c := by
  cases h with
  | register x hx => exact .register x hx
  | pushBound hreg hi hs => exact .pushBound hreg hi hs
  | popBound hreg hi hs => exact .popBound hreg hi hs
  | advance hreg hpush hpop hc hp =>
    refine .advance hreg hpush hpop ?_ hp
    cases i <;> exact hc

/-- An effect with register `k` written before: the same effect where the instruction overwrites `k`, or else the effect
with `k` written after. -/
theorem Effect.writeReg {i : Instr} {s u : State} (h : Effect i s u) {k : Fin Config.numRegs}
    (hk : ∀ r ∈ readsRegs i, r.toNat ≠ k) (v : Byte) :
    Effect i (s.writeReg k v) u ∨ (u.regs[k] = s.regs[k] ∧ Effect i (s.writeReg k v) (u.writeReg k v)) := by
  have hread r (hr : r ∈ readsRegs i) (hlt : r.toNat < Config.numRegs) :
      (s.writeReg k v).regs[r.toNat] = s.regs[r.toNat] := getElem_writeReg_of_ne hlt (hk r hr)
  cases i with
  | halt | ret =>
    obtain ⟨hp, rfl⟩ := h
    exact .inr ⟨rfl, hp, rfl⟩
  | ldi a b =>
    obtain ⟨ha, hp, rfl⟩ := h
    obtain hset | ⟨hkept, hset⟩ := set_writeReg_cases s k v ha b
    · exact .inl ⟨ha, hp, by rw [hset]; rfl⟩
    · exact .inr ⟨hkept, ha, hp, by rw [hset]; rfl⟩
  | pop a =>
    obtain ⟨ha, hs, hp, rfl⟩ := h
    obtain hset | ⟨hkept, hset⟩ := set_writeReg_cases s k v ha (s.mem.read s.sp.toNat)
    · exact .inl ⟨ha, hs, hp, by rw [writeReg_mem, writeReg_sp, hset]; rfl⟩
    · exact .inr ⟨hkept, ha, hs, hp, by rw [writeReg_mem, writeReg_sp, hset]; rfl⟩
  | mul a b | add a b =>
    obtain ⟨ha, hb, hp, rfl⟩ := h
    have hak : a.toNat ≠ k := hk a (.head _)
    refine .inr ⟨Vector.getElem_set_ne ha k.isLt hak, ha, hb, hp, ?_⟩
    rw [hread a (.head _) ha, hread b (.tail _ (.head _)) hb, writeReg_regs, Vector.set_comm _ _ hak.symm]
    rfl
  | cmp a b =>
    obtain ⟨ha, hb, hp, rfl⟩ := h
    exact .inr ⟨rfl, ha, hb, hp, by rw [hread a (.head _) ha, hread b (.tail _ (.head _)) hb]; rfl⟩
  | prn a =>
    obtain ⟨ha, hp, rfl⟩ := h
    exact .inr ⟨rfl, ha, hp, by rw [hread a (.head _) ha]; rfl⟩
  | push a | call a =>
    obtain ⟨ha, hs, hp, rfl⟩ := h
    exact .inr ⟨rfl, ha, hs, hp, by rw [hread a (.head _) ha]; rfl⟩
  | jmp a =>
    obtain ⟨ha, rfl⟩ := h
    exact .inr ⟨rfl, ha, by rw [hread a (.head _) ha]; rfl⟩
  | jeq a | jne a =>
    obtain ⟨ha, ⟨he, rfl⟩ | ⟨he, hp, rfl⟩⟩ := h
    · exact .inr ⟨rfl, ha, .inl ⟨he, by rw [hread a (.head _) ha]; rfl⟩⟩
    · exact .inr ⟨rfl, ha, .inr ⟨he, hp, rfl⟩⟩

/-- The step's last line does not look at the registers (R90). -/
theorem endStep_writeReg (u : State) (k : Fin Config.numRegs) (v : Byte) :
    endStep (u.writeReg k v) = (endStep u).writeReg k v := by
  simp only [endStep_eq]
  rfl

/-- Settles O32: an effect writes at most `operand_a` of the four; an effect and a raise each carry over to the state
with an unread register written. -/
theorem registersAreAccessedOnlyAsOperands : Obligations.RegistersAreAccessedOnlyAsOperands := by
  unfold Obligations.RegistersAreAccessedOnlyAsOperands
  refine ⟨fun i s t k h hne => ?_, fun i s t k v hk h => ?_⟩
  · obtain ⟨u, hu, rfl⟩ | ⟨c, _, rfl⟩ := exec_cases h
    · rw [endStep_regs] at hne
      obtain hregs | ⟨a, w, ha, hregs, hi⟩ := hu.regs_cases
      · rw [hregs] at hne
        exact absurd rfl hne
      · refine ⟨a, by_contra fun hak => hne ?_, hi⟩
        rw [hregs]
        exact Vector.getElem_set_ne ha k.isLt hak
    · exact absurd rfl hne
  · change exec i (s.writeReg k v) = _ ∨ _ ∧ exec i (s.writeReg k v) = .next (t.writeReg k v)
    obtain ⟨u, hu, rfl⟩ | ⟨c, hc, rfl⟩ := exec_cases h
    · rw [endStep_regs, ← endStep_writeReg]
      exact (hu.writeReg hk v).imp exec_of_effect (And.imp_right exec_of_effect)
    · exact .inr ⟨rfl, exec_of_raises (hc.writeReg k v)⟩

end Sys2Proof.Machine
end

section
/-! PROOFS. Memory as the host sees it: a read gives the most recent write, and the canonical form is determined by its
reads. -/

namespace Sys2Proof.Machine

/-- Writes inside the address space, one after the other, keep the canonical form. -/
theorem Memory.wf_foldl_write {writes : List (Nat × Byte)} (h : ∀ w ∈ writes, w.1 < Config.memSize) {m : Memory}
    (hm : m.wf = true) : (writes.foldl (fun m w => m.write w.1 w.2) m).wf = true := by
  induction writes generalizing m with
  | nil => exact hm
  | cons w ws ih =>
    exact ih (fun x hx => h x (.tail _ hx)) (Memory.wf_write hm (h w (.head _)) w.2)

/-- Settles O45, by induction on the writes from the last one back: the last write either is the one that the read sees,
or is to another address and changes neither side. -/
theorem readGivesTheMostRecentWrite : Obligations.ReadGivesTheMostRecentWrite := by
  unfold Obligations.ReadGivesTheMostRecentWrite
  intro writes addr h
  induction writes using List.reverseRecOn with
  | nil => rfl
  | append_singleton ws w ih =>
    have hws : ∀ x ∈ ws, x.1 < 256 := fun x hx => h x (List.mem_append_left _ hx)
    rw [List.foldl_append, List.foldl_cons, List.foldl_nil, List.filter_append]
    by_cases ha : w.1 = addr
    · subst ha
      rw [Memory.read_write_self (Memory.wf_foldl_write hws rfl)]
      simp
    · rw [Memory.read_write_of_ne _ (Ne.symm ha), ih hws]
      simp [ha]

/-- A canonical memory's first entry, read. -/
theorem Memory.read_head (k : Nat) (v : Byte) (rest : Memory) : Memory.read ((k, v) :: rest) k = v := by
  simp [Memory.read]

/-- Other addresses do not see the first entry. -/
theorem Memory.read_tail {k addr : Nat} (h : addr ≠ k) (v : Byte) (rest : Memory) :
    Memory.read ((k, v) :: rest) addr = rest.read addr := by
  simp [Memory.read, Ne.symm h]

/-- Of two canonical memories that read alike, neither has its first entry below the other's: at that address the one
would hold a byte other than 0 and the other would read 0. -/
theorem Memory.le_of_read_eq {k l : Nat} {v x : Byte} {m n : Memory} (hm : Memory.wf ((k, v) :: m) = true)
    (hn : Memory.wf ((l, x) :: n) = true)
    (h : ∀ addr, addr < Config.memSize → Memory.read ((k, v) :: m) addr = Memory.read ((l, x) :: n) addr) : l ≤ k := by
  obtain ⟨hk, hv, -, -⟩ := Memory.wf_cons.mp hm
  obtain ⟨-, -, hlt, -⟩ := Memory.wf_cons.mp hn
  by_contra hkl
  have hfirst := h k hk
  rw [Memory.read_head, Memory.read_of_lt fun c hc => ?_] at hfirst
  · exact hv hfirst
  · rcases List.mem_cons.mp hc with rfl | hc
    · omega
    · have := hlt c hc
      omega

/-- Settles O46, by induction on both memories: the first entries are at the same address, hold the same byte, and the
rests read alike. -/
theorem canonicalMemoriesThatReadAlikeAreEqual : Obligations.CanonicalMemoriesThatReadAlikeAreEqual := by
  unfold Obligations.CanonicalMemoriesThatReadAlikeAreEqual
  intro m
  induction m with
  | nil =>
    rintro (_ | ⟨⟨l, x⟩, n⟩) _ hn h
    · rfl
    · obtain ⟨hl, hx, -, -⟩ := Memory.wf_cons.mp hn
      exact absurd ((h l hl).trans (Memory.read_head l x n)).symm hx
  | cons c m ih =>
    obtain ⟨k, v⟩ := c
    rintro (_ | ⟨⟨l, x⟩, n⟩) hm hn h
    · obtain ⟨hk, hv, -, -⟩ := Memory.wf_cons.mp hm
      exact absurd ((Memory.read_head k v m).symm.trans (h k hk)) hv
    · obtain ⟨hk, -, hltm, hm'⟩ := Memory.wf_cons.mp hm
      obtain ⟨-, -, hltn, hn'⟩ := Memory.wf_cons.mp hn
      obtain rfl : k = l :=
        Nat.le_antisymm (Memory.le_of_read_eq hn hm fun a ha => (h a ha).symm) (Memory.le_of_read_eq hm hn h)
      obtain rfl : v = x := by simpa only [Memory.read_head] using h k hk
      rw [ih n hm' hn' fun addr ha => ?_]
      by_cases hak : addr = k
      · rw [hak, Memory.read_of_lt hltm, Memory.read_of_lt hltn]
      · simpa only [Memory.read_tail hak] using h addr ha

end Sys2Proof.Machine
end

section
/-! PROOFS. The host's operations: `load` and its answers, and `run` as an iteration of `step` that stops for good. -/

namespace Sys2Proof.Machine

/-! ### Load -/

/-- An address outside 0..255 (R43). -/
theorem outOfRange_iff {addr : Int} : outOfRange addr = true ↔ addr < 0 ∨ 255 < addr := by
  simp [outOfRange]

/-- An address inside 0..255 (R43). -/
theorem outOfRange_eq_false_iff {addr : Int} : outOfRange addr = false ↔ 0 ≤ addr ∧ addr ≤ 255 := by
  simp [outOfRange]

/-- A byte's value given as an integer (R34). -/
theorem toNat_ofInt {value : Int} (h : 0 ≤ value ∧ value ≤ 255) : (BitVec.ofInt 8 value).toNat = value.toNat := by
  obtain ⟨hlo, hhi⟩ := h
  rw [BitVec.toNat_ofInt, Int.emod_eq_of_lt hlo (by omega)]

/-- Settles O52: the three checks of `load` in order, and the write that is left. -/
theorem loadWritesOneByteBeforeRunOnly : Obligations.LoadWritesOneByteBeforeRunOnly := by
  unfold Obligations.LoadWritesOneByteBeforeRunOnly
  intro host addr value
  refine ⟨fun hrun => ?_, fun hrun hv => ⟨fun ha => ?_, fun ha => ?_⟩, fun hrun hv => ?_⟩
  · simp [Session.load, hrun]
  · refine ⟨host.machine.mem.write addr.toNat (BitVec.ofInt 8 value), ?_, fun hwf => ?_, fun other hother => ?_⟩
    · simp [Session.load, hrun, outOfRange_eq_false_iff.mpr hv, writeMem, outOfRange_eq_false_iff.mpr ha]
    · rw [Memory.read_write_self hwf, toNat_ofInt hv]
    · exact Memory.read_write_of_ne _ hother _
  · simp [Session.load, hrun, outOfRange_eq_false_iff.mpr hv, writeMem, outOfRange_iff.mpr ha]
  · simp [Session.load, hrun, outOfRange_iff.mpr hv]

/-! ### Run -/

/-- The run loop takes the step that there is (R81). -/
theorem runFor_succ_of_next {s t : State} (h : step s = .next t) (k : Nat) : s.runFor (k + 1) = t.runFor k := by
  simp [State.runFor, h]

/-- The run loop stops as soon as the outcome is not Running (R81). -/
theorem runFor_of_not_running {s : State} (h : s.outcome ≠ .running) (k : Nat) : s.runFor k = s := by
  cases k with
  | zero => rfl
  | succ k =>
    cases hstep : step s with
    | next t => exact absurd (running_of_step_next hstep) h
    | fault _ => simp [State.runFor, hstep]
    | refused _ => simp [State.runFor, hstep]

/-- Looking after `k + j` steps is looking `j` steps after looking after `k`. -/
theorem runFor_add (s : State) (k j : Nat) : s.runFor (k + j) = (s.runFor k).runFor j := by
  induction k generalizing s with
  | zero => simp [State.runFor]
  | succ k ih =>
    by_cases hrun : s.outcome = .running
    · obtain ⟨t, ht⟩ := step_next_of_running hrun
      rw [Nat.add_right_comm, runFor_succ_of_next ht, runFor_succ_of_next ht, ih]
    · simp only [runFor_of_not_running hrun]

/-- `run` answers exactly when the machine it has come to is terminal (R35). -/
theorem run_eq_some_iff {host host' : Session} {k : Nat} {o : RunOutcome} :
    host.run k = some (o, host') ↔
      o ≠ .running ∧ o = (host.machine.runFor k).outcome ∧
        host' = { machine := host.machine.runFor k, runCalled := true } := by
  simp only [Session.run]
  split
  · simp_all
  · simp only [Option.some.injEq, Prod.mk.injEq]
    constructor
    · rintro ⟨rfl, rfl⟩
      exact ⟨‹_›, rfl, rfl⟩
    · rintro ⟨_, rfl, rfl⟩
      exact ⟨rfl, rfl⟩

/-- Settles O54: the machine that `run` leaves is terminal, so more steps leave it as it is. -/
theorem runReturnsOnlyTerminalOutcomes : Obligations.RunReturnsOnlyTerminalOutcomes := by
  unfold Obligations.RunReturnsOnlyTerminalOutcomes
  refine ⟨fun host host' k o h => ?_, fun s t k h => runFor_succ_of_next h k⟩
  obtain ⟨hterminal, rfl, rfl⟩ := run_eq_some_iff.mp h
  refine ⟨hterminal, rfl, rfl, fun j hj => ?_, fun j => ?_⟩
  · obtain ⟨d, rfl⟩ := Nat.exists_eq_add_of_le hj
    rw [run_eq_some_iff, runFor_add, runFor_of_not_running hterminal]
    exact ⟨hterminal, rfl, rfl⟩
  · rw [run_eq_some_iff, runFor_of_not_running hterminal]
    exact ⟨hterminal, rfl, rfl⟩

end Sys2Proof.Machine
end

section
/-! PROOFS. The whole next state of LDI, PRN and CMP, and the text of the output port. -/

namespace Sys2Proof.Machine

/-! ### LDI, PRN and CMP on operands they complete on -/

/-- Settles O18: LDI has its effect, and the step's last line sets the outcome. -/
theorem ldiWritesTheLiteral : Obligations.LdiWritesTheLiteral := by
  unfold Obligations.LdiWritesTheLiteral
  intro a b s ha hp
  rw [exec_of_effect (i := .ldi a b) ⟨ha, hp, rfl⟩, endStep_eq, ofNat_toNat_add]
  rfl

/-- Settles O19: PRN has its effect, and the text of the longer Out is the text of Out and one more line. -/
theorem prnAppendsToTheOutput : Obligations.PrnAppendsToTheOutput := by
  unfold Obligations.PrnAppendsToTheOutput
  intro a s ha hp
  refine ⟨_, exec_of_effect ⟨ha, hp, rfl⟩, ?_, ?_⟩
  · rw [endStep_eq, ofNat_toNat_add]
    rfl
  · simp [State.outputText, outputLine, lineTerminator]

/-- The flags of a comparison, with the bytes' values compared (R114). -/
theorem compareFlags_eq (va vb : Byte) :
    compareFlags va vb = if va.toNat = vb.toNat then 0x01 else if va.toNat > vb.toNat then 0x02 else 0x04 := by
  simp only [compareFlags, flagE, flagG, flagL, BitVec.toNat_inj]

/-- Settles O22: CMP has its effect, and the step's last line sets the outcome. -/
theorem cmpReplacesFlags : Obligations.CmpReplacesFlags := by
  unfold Obligations.CmpReplacesFlags
  intro a b s ha hb hp
  rw [exec_of_effect (i := .cmp a b) ⟨ha, hb, hp, rfl⟩, endStep_eq, ofNat_toNat_add, compareFlags_eq]
  rfl

/-! ### Decimal text -/

/-- The ASCII byte of a digit, as a number. -/
theorem asciiDigit_toNat {d : Nat} (h : d ≤ 9) : (asciiDigit d).toNat = 0x30 + d := by
  rw [asciiDigit, toNat_ofNat_of_le (by omega)]

/-- A byte's text is the ASCII of its decimal digits: they make up its value, and the first is not 0 unless it is the
only one (R37). -/
theorem decimalText_eq_map (v : Byte) :
    ∃ d ds, decimalText v = (d :: ds).map asciiDigit ∧ (∀ x ∈ d :: ds, x ≤ 9) ∧
      (d :: ds).foldl (fun n x => 10 * n + x) 0 = v.toNat ∧ (d = 0 → ds = []) := by
  have hlt := v.isLt
  simp only [decimalText]
  split
  · exact ⟨v.toNat, [], rfl, by simp; omega, by simp, fun _ => rfl⟩
  · split
    · exact ⟨v.toNat / 10, [v.toNat % 10], rfl, by simp; omega, by simp; omega, by omega⟩
    · exact ⟨v.toNat / 100, [v.toNat / 10 % 10, v.toNat % 10], rfl, by simp; omega, by simp; omega, by omega⟩

/-- Reading the ASCII of digits back gives the number that the digits make up. -/
theorem foldl_map_asciiDigit {digits : List Nat} (h : ∀ x ∈ digits, x ≤ 9) :
    (digits.map asciiDigit).foldl (fun n d => 10 * n + (d.toNat - 0x30)) 0 =
      digits.foldl (fun n x => 10 * n + x) 0 := by
  rw [List.foldl_map]
  refine List.foldl_ext _ _ _ fun n x hx => ?_
  rw [asciiDigit_toNat (h x hx), Nat.add_sub_cancel_left]

/-- Settles O55: each clause about a byte's text is one about its decimal digits. -/
theorem outputTextIsUnsignedDecimalLines : Obligations.OutputTextIsUnsignedDecimalLines := by
  unfold Obligations.OutputTextIsUnsignedDecimalLines
  refine ⟨fun v => ?_, fun _ => rfl⟩
  obtain ⟨d, ds, htext, hdigits, hvalue, hfirst⟩ := decimalText_eq_map v
  refine ⟨fun c hc => ?_, ?_, fun hv => ?_, fun hv => by rw [hv]; rfl⟩
  · rw [htext] at hc
    obtain ⟨x, hx, rfl⟩ := List.mem_map.mp hc
    have hx9 := hdigits x hx
    rw [asciiDigit_toNat hx9]
    omega
  · rw [htext, foldl_map_asciiDigit hdigits, hvalue]
  · refine ⟨asciiDigit d, ds.map asciiDigit, htext, fun hd => hv (BitVec.eq_of_toNat_eq ?_)⟩
    have h0 : d = 0 := by simpa [hd] using (asciiDigit_toNat (hdigits d (.head _))).symm
    rw [← hvalue, h0, hfirst h0]
    rfl

end Sys2Proof.Machine
end

section
/-! PROOFS. What an instruction stores to memory: PUSH and CALL one byte at SP - 1, the others nothing; the whole next
state of the four stack instructions; and the bounds of every access. -/

namespace Sys2Proof.Machine

/-! ### The address a push stores to -/

/-- The address below a pointer that is not 0, as a number (R50). -/
theorem toNat_sub_one {x : Byte} (h : x ≠ 0) : (x - 1).toNat = x.toNat - 1 :=
  Nat.eq_sub_of_add_eq (toNat_sub_one_add_one h)

/-- There is an address to push to exactly where SP is not 0, and it is SP - 1 (R50). -/
theorem pushTarget_eq_ok_iff {s : State} {target : Byte} :
    pushTarget s = .ok target ↔ s.sp ≠ 0 ∧ target = s.sp - 1 := by
  by_cases h : s.sp = 0
  · simp [pushTarget_of_eq h, h]
  · rw [pushTarget_of_ne h, Except.ok.injEq, and_iff_right h, eq_comm]

/-- There is no address to push to at SP = 0 alone (R50). -/
theorem sp_eq_zero_of_pushTarget_error {s : State} {c : ErrorCause} (h : pushTarget s = .error c) : s.sp = 0 := by
  by_contra hs
  rw [pushTarget_of_ne hs] at h
  cases h

/-! ### Memory after an instruction -/

/-- A push that completes had an SP above 0 (R50). -/
theorem Effect.sp_ne_zero {i : Instr} {s u : State} (h : Effect i s u) (hi : i.mnemonic ∈ [.push, .call]) :
    s.sp ≠ 0 := by
  cases i with
  | push _ | call _ =>
    obtain ⟨_, hs, _⟩ := h
    exact hs
  | _ => simp [Instr.mnemonic] at hi

/-- Memory after an instruction: as before, or, for PUSH and CALL at an SP above 0, with one byte stored at SP - 1
(R44, R50). -/
theorem exec_mem_cases {i : Instr} {s t : State} (h : exec i s = .next t) :
    t.mem = s.mem ∨
      i.mnemonic ∈ [.push, .call] ∧ s.sp ≠ 0 ∧ ∃ v, t.mem = s.mem.write (s.sp - 1).toNat v := by
  obtain ⟨u, hu, rfl⟩ | ⟨c, _, rfl⟩ := exec_cases h
  · rw [endStep_mem]
    by_cases hi : i.mnemonic ∈ [.push, .call]
    · exact hu.mem_cases.imp_right fun hwrite => ⟨hi, hu.sp_ne_zero hi, hwrite⟩
    · exact .inl (hu.frame.mem hi)
  · exact .inl (raise_mem s c)

/-- Settles O30: of the cases for memory after an instruction, the one that stores is of PUSH and CALL. -/
theorem otherInstructionsStoreNothing : Obligations.OtherInstructionsStoreNothing := by
  unfold Obligations.OtherInstructionsStoreNothing
  intro i s t hpush hcall h addr
  obtain hmem | ⟨hi, _⟩ := exec_mem_cases h
  · rw [hmem]
  · simp [hpush, hcall] at hi

/-- A PUSH that leaves no error stored its register's value where SP now points (R121). -/
theorem read_of_push {a : Byte} {s t : State} (hwf : s.mem.wf = true) (h : exec (.push a) s = .next t)
    (ht : t.noError) :
    ∃ _ : a.toNat < Config.numRegs, t.sp = s.sp - 1 ∧ t.mem.read (s.sp - 1).toNat = s.regs[a.toNat] := by
  obtain ⟨u, ⟨ha, _, _, rfl⟩, rfl⟩ := effect_of_noError h ht
  refine ⟨ha, endStep_sp _, ?_⟩
  rw [endStep_mem, Memory.read_write_self hwf]

/-- A CALL that leaves no error stored the return address, which is a byte's value (R131). -/
theorem read_of_call {a : Byte} {s t : State} (hwf : s.mem.wf = true) (h : exec (.call a) s = .next t)
    (ht : t.noError) :
    a.toNat < Config.numRegs ∧ (t.mem.read (s.sp - 1).toNat).toNat = s.pc.toNat + 2 := by
  obtain ⟨u, ⟨ha, _, hp, rfl⟩, rfl⟩ := effect_of_noError h ht
  refine ⟨ha, ?_⟩
  rw [endStep_mem, Memory.read_write_self hwf, toNat_ofNat_of_le hp]

/-- Settles O31: memory is as before or written at SP - 1, which is the push's target; the byte there is the one that a
completed PUSH or CALL stored; at SP = 0 and after a raise nothing is written. -/
theorem pushAndCallStoreOnlyAtPushTarget : Obligations.PushAndCallStoreOnlyAtPushTarget := by
  unfold Obligations.PushAndCallStoreOnlyAtPushTarget
  intro i a s t hi hwf h
  refine ⟨fun target htarget => ?_, fun target htarget _ ht => ?_, fun c hc addr => ?_, fun hs ht addr => ?_⟩
  · obtain ⟨hsp, rfl⟩ := pushTarget_eq_ok_iff.mp htarget
    refine ⟨toNat_sub_one_add_one hsp, fun addr haddr => ?_⟩
    obtain hmem | ⟨_, _, v, hmem⟩ := exec_mem_cases h
    · rw [hmem]
    · rw [hmem, Memory.read_write_of_ne _ haddr]
  · obtain ⟨_, rfl⟩ := pushTarget_eq_ok_iff.mp htarget
    rcases hi with rfl | rfl
    · obtain ⟨ha, _, hread⟩ := read_of_push hwf h ht
      exact ⟨ha, fun _ => hread, nofun⟩
    · obtain ⟨ha, hread⟩ := read_of_call hwf h ht
      exact ⟨ha, nofun, fun _ => hread⟩
  · obtain hmem | ⟨_, hsp, _⟩ := exec_mem_cases h
    · rw [hmem]
    · exact absurd (sp_eq_zero_of_pushTarget_error hc) hsp
  · obtain ⟨c, _, rfl⟩ := raises_of_not_noError hs h ht
    rw [raise_mem]

/-! ### A stored byte is fetched -/

/-- A fetch that answers read the three bytes from PC on (R83, R84). -/
theorem eq_of_fetch_ok {s : State} {f : Fetched} (h : fetch s = .ok f) :
    f = { op := s.mem.read s.pc.toNat, a := s.mem.read (s.pc.toNat + 1), b := s.mem.read (s.pc.toNat + 2) } := by
  by_cases hp : s.pc.toNat ≤ 253
  · rw [fetch_of_le hp] at h
    exact (Except.ok.inj h).symm
  · rw [fetch_of_gt (by omega)] at h
    cases h

/-- A step that leaves no error ran the instruction at PC (R89). -/
theorem exec_of_step_noError {i : Instr} {s t : State} (hi : s.nextInstr = some i) (h : step s = .next t)
    (ht : t.noError) : exec i s = .next t := by
  obtain ⟨hrun, ⟨_, rfl⟩ | ⟨_, _, rfl⟩ | ⟨hp, _⟩⟩ := step_cases h
  · exact absurd ht (not_noError_raise _ _)
  · exact absurd ht (not_noError_raise _ _)
  · rwa [step_of_nextInstr hrun hp hi] at h

/-- Settles O43: the pushed byte lies where SP points after the PUSH, and the next fetch reads memory there,
whichever of its three addresses that is. -/
theorem storedByteIsFetchedNext : Obligations.StoredByteIsFetchedNext := by
  unfold Obligations.StoredByteIsFetchedNext
  intro s t a f hwf hi h ht hf
  obtain ⟨ha, hsp, hread⟩ := read_of_push hwf (exec_of_step_noError hi h ht) ht
  rw [← hsp] at hread
  obtain rfl := eq_of_fetch_ok hf
  exact ⟨ha, fun heq => heq ▸ hread, fun heq => heq ▸ hread, fun heq => heq ▸ hread⟩

/-! ### Every access is bounds-checked -/

/-- The checked accesses inside the address space (R43). -/
theorem readMem_writeMem_of_le {addr : Int} (h : 0 ≤ addr ∧ addr ≤ 255) (m : Memory) (v : Byte) :
    readMem m addr = .ok (m.read addr.toNat) ∧ writeMem m addr v = .ok (m.write addr.toNat v) := by
  simp [readMem, writeMem, outOfRange_eq_false_iff.mpr h]

/-- The checked accesses outside the address space (R43). -/
theorem readMem_writeMem_of_outside {addr : Int} (h : addr < 0 ∨ 255 < addr) (m : Memory) (v : Byte) :
    readMem m addr = .error (.addressOutOfRange .memory addr) ∧
      writeMem m addr v = .error (.addressOutOfRange .memory addr) := by
  simp [readMem, writeMem, outOfRange_iff.mpr h]

/-- Memory after a step: as before, or with one byte stored at SP - 1, SP being above 0 (R44, R50). -/
theorem step_mem_cases {s t : State} (h : step s = .next t) :
    t.mem = s.mem ∨ ∃ v, 0 < s.sp.toNat ∧ t.mem = s.mem.write (s.sp.toNat - 1) v := by
  obtain ⟨_, ⟨_, rfl⟩ | ⟨_, _, rfl⟩ | ⟨_, i, _, hexec⟩⟩ := step_cases h
  · exact .inl rfl
  · exact .inl rfl
  · obtain hmem | ⟨_, hsp, v, hmem⟩ := exec_mem_cases hexec
    · exact .inl hmem
    · rw [toNat_sub_one hsp] at hmem
      exact .inr ⟨v, by bv_omega, hmem⟩

/-- Settles O47: the checked accesses by the address; a candidate read past 255 has the address 256; a push at SP = 0
and a pop at SP = 255 raise; and the memory of every other step is as before or written at SP - 1. -/
theorem everyAccessIsBoundsChecked : Obligations.EveryAccessIsBoundsChecked := by
  unfold Obligations.EveryAccessIsBoundsChecked
  refine ⟨fun m addr v => ⟨fun h => readMem_writeMem_of_le h m v, fun h => readMem_writeMem_of_outside h m v⟩,
    fun s hrun => ⟨fun k hk hover hprev => ?_, fun i hp hi hwf => ?_, fun t => step_mem_cases⟩⟩
  · have h256 : s.pc.toNat + k = 256 := by omega
    rw [h256]
    exact step_of_top hrun (by omega)
  · rw [step_of_nextInstr hrun hp hi]
    obtain ⟨hpush, hpop⟩ := stackBoundsRaise i s hwf
    refine ⟨fun hm hlow => ?_, fun hm hhigh => ?_⟩
    · have hsp : s.sp.toNat = 0 := by omega
      rw [hsp]
      exact hpush hm hsp
    · have hsp : s.sp.toNat = 255 := by omega
      rw [hsp]
      exact hpop hm hsp

/-! ### The whole next state of PUSH, POP, CALL and RET -/

/-- Settles O23: PUSH has its effect, and the step's last line sets the outcome. -/
theorem pushStoresBelowSp : Obligations.PushStoresBelowSp := by
  unfold Obligations.PushStoresBelowSp
  intro a s ha hs hp
  have hsp : s.sp ≠ 0 := ne_of_apply_ne BitVec.toNat hs
  rw [exec_of_effect (i := .push a) ⟨ha, hsp, hp, rfl⟩, endStep_eq, ofNat_toNat_add, toNat_sub_one hsp]
  rfl

/-- Settles O24: POP has its effect, and the step's last line sets the outcome. -/
theorem popLoadsFromSp : Obligations.PopLoadsFromSp := by
  unfold Obligations.PopLoadsFromSp
  intro a s ha hs hp
  have hsp : s.sp ≠ 255 := ne_of_apply_ne BitVec.toNat hs
  rw [exec_of_effect (i := .pop a) ⟨ha, hsp, hp, rfl⟩, endStep_eq, ofNat_toNat_add]
  rfl

/-- Settles O25: CALL has its effect, and the step's last line sets the outcome. -/
theorem callPushesReturnAddress : Obligations.CallPushesReturnAddress := by
  unfold Obligations.CallPushesReturnAddress
  intro a s ha hs hp
  have hsp : s.sp ≠ 0 := ne_of_apply_ne BitVec.toNat hs
  rw [exec_of_effect (i := .call a) ⟨ha, hsp, hp, rfl⟩, endStep_eq, ofNat_toNat_add, toNat_sub_one hsp]
  rfl

/-- Settles O26: RET has its effect, and the step's last line sets the outcome. -/
theorem retPopsIntoPc : Obligations.RetPopsIntoPc := by
  unfold Obligations.RetPopsIntoPc
  intro s hs
  rw [exec_of_effect (i := .ret) ⟨ne_of_apply_ne BitVec.toNat hs, rfl⟩, endStep_eq]

end Sys2Proof.Machine
end

section
/-! PROOFS. The decided encoding in both directions, the static decoder on whole programs, and the step that finds an
encoded instruction at PC. -/

namespace Sys2Proof

/-! ### The parts of an instruction -/

/-- The handler of an instruction put together from a handler and two bytes is that handler (R64). -/
@[simp] theorem mnemonic_instrOf (m : Mnemonic) (a b : Byte) : (instrOf m a b).mnemonic = m := by
  cases m <;> rfl

/-- Of two candidate operands an instruction keeps as many as its row counts (R64, R67). -/
theorem operands_instrOf (m : Mnemonic) (a b : Byte) : (instrOf m a b).operands = [a, b].take m.operandCount := by
  cases m <;> rfl

/-- An instruction has as many operand bytes as its row counts (R64, R67). -/
theorem length_operands (i : Instr) : i.operands.length = i.mnemonic.operandCount := by
  cases i <;> rfl

/-- Candidate operands that begin with an instruction's own operands give it back: the byte that its format leaves out
does not matter (R64). -/
theorem instrOf_of_operands_prefix {i : Instr} {a b : Byte} (h : i.operands <+: [a, b]) :
    instrOf i.mnemonic a b = i := by
  obtain ⟨rest, hrest⟩ := h
  cases i <;> simp_all [Instr.operands, Instr.mnemonic, instrOf]

/-- Bits 7:6 of a handler's opcode are its operand count (R62, R63). -/
theorem operandCountBits_opcodeMap (m : Mnemonic) : operandCountBits (opcodeMap m) = m.operandCount := by
  cases m <;> decide

/-- An encoded instruction is its opcode and its operands (R61, R78). -/
theorem encode_eq (i : Instr) : encode i = opcodeMap i.mnemonic :: i.operands := rfl

/-- An encoded instruction is as long as its width (R61). -/
theorem length_encode (i : Instr) : (encode i).length = i.width := by
  rw [encode_eq, List.length_cons, length_operands, Instr.width, Nat.add_comm]

/-! ### The round trips -/

/-- Settles O1: the dispatch table knows every handler by its opcode. -/
theorem decodeInvertsEncode : Obligations.DecodeInvertsEncode := by
  unfold Obligations.DecodeInvertsEncode
  intro i rest
  exact decodeWith_encodeWith (lookup_opcodeMap i.mnemonic) rest

/-- Encoding inverts decoding under every opcode map: the dispatch table gives a handler only for its own opcode, and
the decoder consumes the operands that the handler's row counts (R61, R66, R78). -/
theorem eq_encodeWith_of_decodeWith {map : OpcodeMap} {bytes rest : List Byte} {i : Instr}
    (h : decodeWith map bytes = .ok (i, rest)) : bytes = encodeWith map i ++ rest := by
  cases bytes with
  | nil => cases h
  | cons op tail =>
    cases hm : lookupWith map op with
    | none => simp [decodeWith, hm] at h
    | some m =>
      have hop : map m = op := by simpa using List.find?_some hm
      simp only [decodeWith, hm] at h
      split at h
      case h_1 hcount | h_2 hcount | h_3 hcount =>
        cases h
        simp [encodeWith, operands_instrOf, hcount, hop]
      case h_4 => cases h

/-- Settles O2: encoding inverts decoding under every map, the decided one included. -/
theorem encodeInvertsDecode : Obligations.EncodeInvertsDecode := by
  unfold Obligations.EncodeInvertsDecode
  intro bytes i rest h
  exact eq_encodeWith_of_decodeWith h

/-- Settles O7: the decoder run on each of the words. -/
theorem opcodeWordsDecode : Obligations.OpcodeWordsDecode := by
  unfold Obligations.OpcodeWordsDecode
  decide

/-! ### The static decoder -/

/-- A byte that is no registered opcode is no instruction (R69, R73). -/
theorem decode_unregistered {op : Byte} (h : ∀ m, opcodeMap m ≠ op) (rest : List Byte) :
    decode (op :: rest) = .error (.unregistered op) := by
  have hlookup : lookupWith opcodeMap op = none := lookup_eq_none h
  simp only [decode, decodeWith, hlookup]

/-- The static decoder does not go past bytes that do not decode (R73). -/
theorem disassembleFuel_of_error {bytes : List Byte} {r : DecodeRefusal} (h : decode bytes = .error r) (fuel : Nat) :
    disassembleFuel fuel bytes = ([], bytes) := by
  cases fuel with
  | zero => rfl
  | succ fuel => simp only [disassembleFuel, h]

/-- The static decoder reads one encoded instruction and goes on after it (R73). -/
theorem disassembleFuel_encode (fuel : Nat) (i : Instr) (rest : List Byte) :
    disassembleFuel (fuel + 1) (encode i ++ rest) =
      (i :: (disassembleFuel fuel rest).1, (disassembleFuel fuel rest).2) := by
  simp only [disassembleFuel, decodeInvertsEncode i rest]

/-- With fuel for a program and to spare, the static decoder recovers it and stops where nothing decodes (R73). -/
theorem disassembleFuel_program {tail : List Byte} {r : DecodeRefusal} (h : decode tail = .error r)
    (program : List Instr) (fuel : Nat) (hfuel : program.length ≤ fuel) :
    disassembleFuel fuel (program.flatMap encode ++ tail) = (program, tail) := by
  induction program generalizing fuel with
  | nil => exact disassembleFuel_of_error h fuel
  | cons i program ih =>
    obtain ⟨fuel, rfl⟩ := Nat.exists_eq_add_of_le' hfuel
    rw [List.flatMap_cons, List.append_assoc, List.length_cons, ← Nat.add_assoc, disassembleFuel_encode,
      ih _ (Nat.le_add_left _ _)]

/-- A program has no more instructions than bytes (R61). -/
theorem length_le_length_flatMap_encode (program : List Instr) : program.length ≤ (program.flatMap encode).length := by
  induction program with
  | nil => exact Nat.le_refl 0
  | cons i program ih =>
    rw [List.flatMap_cons, List.length_append, encode_eq, List.length_cons, List.length_cons]
    omega

/-- The static decoder recovers a program that is followed by bytes that do not decode (R73). -/
theorem disassemble_program {tail : List Byte} {r : DecodeRefusal} (h : decode tail = .error r)
    (program : List Instr) : disassemble (program.flatMap encode ++ tail) = (program, tail) := by
  refine disassembleFuel_program h program _ ?_
  rw [List.length_append]
  exact Nat.le_add_right_of_le (length_le_length_flatMap_encode program)

/-- Settles O4: neither the end of the bytes nor an unregistered opcode decodes. -/
theorem disassemblyRecoversProgram : Obligations.DisassemblyRecoversProgram := by
  unfold Obligations.DisassemblyRecoversProgram
  intro program op rest hop
  have hend : decode [] = .error .noBytes := rfl
  refine ⟨?_, disassemble_program (decode_unregistered hop rest) program⟩
  simpa using disassemble_program hend program

/-! ### The instruction at PC -/

/-- The dispatcher reads an instruction from three bytes that begin with its encoding (R61, R85, R87). -/
theorem dispatch_of_encode_prefix {i : Instr} {op a b : Byte} (h : encode i <+: [op, a, b]) :
    dispatch op a b = some i := by
  rw [encode_eq] at h
  obtain ⟨rfl, hoperands⟩ := List.cons_prefix_cons.mp h
  rw [dispatch, lookup_opcodeMap, Option.map_some, instrOf_of_operands_prefix hoperands]

namespace Machine

/-- The instruction at PC is the one whose encoded bytes stand from PC on (R61, R74). -/
theorem nextInstr_of_bytes {s : State} {i : Instr}
    (h : ∀ k (hk : k < (encode i).length), s.mem.read (s.pc.toNat + k) = (encode i)[k]) : s.nextInstr = some i := by
  have hprefix : encode i <+: (List.range 3).map fun k => s.mem.read (s.pc.toNat + k) := by
    refine List.prefix_iff_getElem.mpr ⟨by simpa [length_encode] using width_le i, fun k hk => ?_⟩
    simp [h k hk]
  exact dispatch_of_encode_prefix hprefix

/-- Settles O5: the opcode's bits count the operands, and the bytes from PC on are what the dispatcher looks at. -/
theorem instructionIsOpcodeAndCountedOperands : Obligations.InstructionIsOpcodeAndCountedOperands := by
  unfold Obligations.InstructionIsOpcodeAndCountedOperands
  intro i
  refine ⟨opcodeMap i.mnemonic, encode_eq i, ?_⟩
  rw [operandCountBits_opcodeMap]
  have hcount : i.mnemonic.operandCount ≤ 2 := (Nat.add_le_add_iff_left (n := 1)).mp (width_le i)
  refine ⟨length_operands i, hcount, rfl, fun s hrun hp hbytes => ?_⟩
  exact step_of_nextInstr hrun hp (nextInstr_of_bytes hbytes)

end Machine

end Sys2Proof
end

section
/-! PROOFS. Fetch and dispatch: which instruction a step runs, which bytes and addresses make it raise before it runs one,
and what a step that raises leaves behind. -/

namespace Sys2Proof

/-! ### The opcode's bits -/

/-- Bit 4 of a handler's opcode says whether the handler owns PC (R62, R63). -/
theorem pcOwned_iff_opcode_bit (m : Mnemonic) : (opcodeMap m).toNat / 16 % 2 = 1 ↔ m.pcOwned = true := by
  cases m <;> decide

/-- A handler has at most two operands (R61, R64). -/
theorem operandCount_le (m : Mnemonic) : m.operandCount ≤ 2 := by
  cases m <;> decide

/-- Settles O6: a registered opcode is its handler's, whose bits are the attributes of the handler's row. -/
theorem decoderAttributesAreOpcodeBits : Obligations.DecoderAttributesAreOpcodeBits := by
  unfold Obligations.DecoderAttributesAreOpcodeBits
  intro op m h
  obtain rfl := opcodeMap_of_lookup h
  have hcount : (opcodeMap m >>> 6).toNat = m.operandCount := by
    rw [BitVec.toNat_ushiftRight, Nat.shiftRight_eq_div_pow, ← Machine.operandCount_of_opcode]
  exact ⟨hcount, hcount ▸ operandCount_le m, pcOwned_iff_opcode_bit m⟩

/-! ### The dispatcher -/

/-- The dispatcher reads from three bytes the instruction that they decode to (R85, R87). -/
theorem dispatch_of_decode {op a b : Byte} {i : Instr} {rest : List Byte} (h : decode [op, a, b] = .ok (i, rest)) :
    dispatch op a b = some i :=
  dispatch_of_encode_prefix ⟨rest, (encodeInvertsDecode _ i rest h).symm⟩

/-- The dispatcher finds nothing for an opcode of no handler (R85). -/
theorem dispatch_eq_none {op : Byte} (h : ∀ m, opcodeMap m ≠ op) (a b : Byte) : dispatch op a b = none := by
  rw [dispatch, lookup_eq_none h, Option.map_none]

namespace Machine

/-! ### The step -/

/-- Settles O8: the dispatcher finds the instruction that the bytes at PC decode to, and the step runs it. -/
theorem stepRunsDecodedInstruction : Obligations.StepRunsDecodedInstruction := by
  unfold Obligations.StepRunsDecodedInstruction
  intro s i rest hrun hp h
  exact step_of_nextInstr hrun hp (dispatch_of_decode h)

/-- Settles O10: the fetch raises before the bytes at PC are looked at. -/
theorem candidateReadsRaiseAtTopOfMemory : Obligations.CandidateReadsRaiseAtTopOfMemory := by
  unfold Obligations.CandidateReadsRaiseAtTopOfMemory
  intro s hrun hp
  exact step_of_top hrun hp

/-- Settles O11: the dispatcher finds no handler, and the step raises DecodeError. -/
theorem unregisteredOpcodeRaisesDecodeError : Obligations.UnregisteredOpcodeRaisesDecodeError := by
  unfold Obligations.UnregisteredOpcodeRaisesDecodeError
  intro s hrun hp hop
  exact step_of_nextInstr_none hrun hp (dispatch_eq_none hop _ _)

/-- A step that leaves an error raised it: none was there before, since the machine was running (R82, R91). -/
theorem exists_eq_raise_of_step {s t : State} (h : step s = .next t) (ht : ¬t.noError) : ∃ c, t = raise s c := by
  obtain ⟨hrun, ⟨_, rfl⟩ | ⟨_, _, rfl⟩ | ⟨_, i, _, hexec⟩⟩ := step_cases h
  · exact ⟨_, rfl⟩
  · exact ⟨_, rfl⟩
  · have hs : s.noError := by simp [State.noError, hrun]
    obtain ⟨c, _, rfl⟩ := raises_of_not_noError hs hexec ht
    exact ⟨c, rfl⟩

/-- Settles O12: an error that a step leaves is a raise's, which changes the outcome alone. -/
theorem raisingStepChangesOnlyTheOutcome : Obligations.RaisingStepChangesOnlyTheOutcome := by
  unfold Obligations.RaisingStepChangesOnlyTheOutcome
  intro s t record h ht
  obtain ⟨c, rfl⟩ := exists_eq_raise_of_step h fun hno => hno record ht
  cases ht
  exact ⟨rfl, rfl, rfl⟩

/-! ### The auto-advance -/

/-- Where the handler does not own PC, the loop computes the address after the instruction (R88). -/
theorem computesNext_of_not_pcOwned {i : Instr} (h : i.mnemonic.pcOwned = false) (s : State) : computesNext i s := by
  cases i with
  | call _ | ret | jmp _ | jeq _ | jne _ => cases h
  | _ => trivial

/-- CALL's handler owns PC (R67, R131). -/
theorem mnemonic_ne_call {i : Instr} (h : i.mnemonic.pcOwned = false) : i.mnemonic ≠ .call := by
  intro hcall
  rw [hcall] at h
  cases h

/-- Settles O16: with every earlier check passed, the advance past 255 is what the instruction raises. -/
theorem advancePastTopRaisesAndCommitsNothing : Obligations.AdvancePastTopRaisesAndCommitsNothing := by
  unfold Obligations.AdvancePastTopRaisesAndCommitsNothing
  intro i s hwf hown hpush hpop hp
  refine exec_of_raises (.advance (badReg_of_wellFormed hwf) (fun hi hsp => ?_) (fun hi hsp => ?_)
    (computesNext_of_not_pcOwned hown s) hp)
  · exact hpush (hi.resolve_right (mnemonic_ne_call hown)) (congrArg BitVec.toNat hsp)
  · exact hpop hi (congrArg BitVec.toNat hsp)

/-! ### The whole next state of HALT, MUL and ADD -/

/-- Settles O17: HALT has its effect, which sets the flag, and so the step's last line ends the run. -/
theorem haltStopsTheMachine : Obligations.HaltStopsTheMachine := by
  unfold Obligations.HaltStopsTheMachine
  intro s hp
  rw [exec_of_effect (i := .halt) ⟨hp, rfl⟩, endStep_eq, ofNat_toNat_add]
  rfl

/-- Settles O20: MUL has its effect, and the step's last line sets the outcome. -/
theorem mulWritesTheProductModulo256 : Obligations.MulWritesTheProductModulo256 := by
  unfold Obligations.MulWritesTheProductModulo256
  intro a b s ha hb hp
  rw [exec_of_effect (i := .mul a b) ⟨ha, hb, hp, rfl⟩, endStep_eq, ofNat_toNat_add, mulBytes]
  rfl

/-- Settles O21: ADD has its effect, and the step's last line sets the outcome. -/
theorem addWritesTheSumModulo256 : Obligations.AddWritesTheSumModulo256 := by
  unfold Obligations.AddWritesTheSumModulo256
  intro a b s ha hb hp
  rw [exec_of_effect (i := .add a b) ⟨ha, hb, hp, rfl⟩, endStep_eq, ofNat_toNat_add, addBytes]
  rfl

end Machine

end Sys2Proof
end

section
/-! PROOFS. The handlers that own PC: the two conditional jumps on either value of E, what PC is after each of the five,
and the jump to its own address. -/

namespace Sys2Proof.Machine

/-! ### The conditional jumps -/

/-- E is the lowest bit of FL's value (R26). -/
theorem equalSet_eq_true_iff {fl : Byte} : equalSet fl = true ↔ fl.toNat % 2 = 1 := by
  simp [equalSet, BitVec.getLsbD, Nat.testBit_zero]

/-- E is clear where FL's value is even (R26). -/
theorem equalSet_eq_false_iff {fl : Byte} : equalSet fl = false ↔ fl.toNat % 2 = 0 := by
  rw [← Bool.not_eq_true, equalSet_eq_true_iff, Nat.mod_two_not_eq_one]

/-- Settles O28: on either value of E, JEQ has the effect of that path. -/
theorem jeqBranchesOnE : Obligations.JeqBranchesOnE := by
  unfold Obligations.JeqBranchesOnE
  intro a s ha hp
  by_cases hE : s.fl.toNat % 2 = 1
  · rw [exec_of_effect (i := .jeq a) ⟨ha, .inl ⟨equalSet_eq_true_iff.mpr hE, rfl⟩⟩, endStep_eq, if_pos hE]
  · have hclear := equalSet_eq_false_iff.mpr (Nat.mod_two_not_eq_one.mp hE)
    rw [exec_of_effect (i := .jeq a) ⟨ha, .inr ⟨hclear, hp, rfl⟩⟩, endStep_eq, if_neg hE, ofNat_toNat_add]
    rfl

/-- Settles O29: on either value of E, JNE has the effect of that path. -/
theorem jneBranchesOnNotE : Obligations.JneBranchesOnNotE := by
  unfold Obligations.JneBranchesOnNotE
  intro a s ha hp
  by_cases hE : s.fl.toNat % 2 = 0
  · rw [exec_of_effect (i := .jne a) ⟨ha, .inl ⟨equalSet_eq_false_iff.mpr hE, rfl⟩⟩, endStep_eq, if_pos hE]
  · have hset := equalSet_eq_true_iff.mpr (Nat.mod_two_not_eq_zero.mp hE)
    rw [exec_of_effect (i := .jne a) ⟨ha, .inr ⟨hset, hp, rfl⟩⟩, endStep_eq, if_neg hE, ofNat_toNat_add]
    rfl

/-! ### PC after a handler that owns it -/

/-- Settles O38: an instruction that leaves no error had its effect, and each of these effects sets PC. -/
theorem pcOwningHandlersSetPc : Obligations.PcOwningHandlersSetPc := by
  unfold Obligations.PcOwningHandlersSetPc
  intro s t _ ht
  refine ⟨fun a ha h => ?_, fun h => ?_, fun a ha h => ?_, fun a ha h => ?_⟩
  · rcases h with h | h
    · obtain ⟨u, ⟨_, _, _, rfl⟩, rfl⟩ := effect_of_noError h ht
      exact endStep_pc _
    · obtain ⟨u, ⟨_, rfl⟩, rfl⟩ := effect_of_noError h ht
      exact endStep_pc _
  · obtain ⟨u, ⟨_, rfl⟩, rfl⟩ := effect_of_noError h ht
    exact endStep_pc _
  · obtain ⟨u, ⟨_, ⟨hE, rfl⟩ | ⟨hE, hp, rfl⟩⟩, rfl⟩ := effect_of_noError h ht
    · exact .inl ⟨equalSet_eq_true_iff.mp hE, endStep_pc _⟩
    · exact .inr ⟨equalSet_eq_false_iff.mp hE, by rw [endStep_pc, toNat_ofNat_of_le hp]⟩
  · obtain ⟨u, ⟨_, ⟨hE, rfl⟩ | ⟨hE, hp, rfl⟩⟩, rfl⟩ := effect_of_noError h ht
    · exact .inl ⟨equalSet_eq_false_iff.mp hE, endStep_pc _⟩
    · exact .inr ⟨equalSet_eq_true_iff.mp hE, by rw [endStep_pc, toNat_ofNat_of_le hp]⟩

/-! ### A run that never ends -/

/-- A JMP to its own address, with the halt flag clear, leaves the state as it is (R93, R133). -/
theorem exec_jmp_self {s : State} {a : Byte} (ha : a.toNat < Config.numRegs) (hhalt : s.halted = false)
    (htarget : s.regs[a.toNat] = s.pc) : exec (.jmp a) s = .next s := by
  have hend : endStep s = s := by simp [endStep, hhalt]
  rw [exec_of_effect (i := .jmp a) ⟨ha, rfl⟩, htarget]
  exact congrArg Host.Outcome.next hend

/-- A step that changes nothing is taken for ever (R93). -/
theorem runFor_of_step_self {s : State} (h : step s = .next s) (k : Nat) : s.runFor k = s := by
  induction k with
  | zero => rfl
  | succ k ih => rw [runFor_succ_of_next h, ih]

/-- Settles O44: each step of the jump gives the same running state, so the run loop never comes to another. -/
theorem jumpToItselfNeverEnds : Obligations.JumpToItselfNeverEnds := by
  unfold Obligations.JumpToItselfNeverEnds
  intro s a ha hrun hhalt hp hi htarget k
  have hself : step s = .next s := by rw [step_of_nextInstr hrun hp hi, exec_jmp_self ha hhalt htarget]
  have hloop := runFor_of_step_self hself k
  refine ⟨hloop, ?_⟩
  simp only [Session.run, hloop]
  exact if_pos hrun

end Sys2Proof.Machine
end

section
/-! PROOFS. From construction through the load of a program and along its run, the machine's invariant holds. -/

namespace Sys2Proof.Machine

/-- A running machine whose memory is replaced by a canonical one keeps the invariant: no error record speaks of the old
memory. -/
theorem State.Inv.with_mem {s : State} {mem : Memory} (hs : s.Inv) (hrun : s.outcome = .running)
    (hmem : mem.wf = true) : State.Inv { s with mem := mem } where
  memory := hmem
  halt := hs.halt
  flags := hs.flags
  error := fun record hrecord => by simp [hrun] at hrecord

/-- A `load` that succeeds is one checked write of memory (R34). -/
theorem load_next {host host' : Session} {addr value : Int} (h : host.load addr value = .next host') :
    ∃ mem, writeMem host.machine.mem addr (BitVec.ofInt 8 value) = .ok mem ∧
      host' = { host with machine := { host.machine with mem := mem } } := by
  unfold Session.load at h
  split at h
  · cases h
  · split at h
    · cases h
    · split at h
      · cases h
      · cases h
        exact ⟨_, ‹_›, rfl⟩

/-- Loading bytes into a running machine keeps the invariant (R165, R166). -/
theorem inv_of_loadFrom {host host' : Session} {addr : Nat} {bytes : List Byte} (hinv : host.machine.Inv)
    (hrun : host.machine.outcome = .running) (h : host.loadFrom addr bytes = .next host') : host'.machine.Inv := by
  induction bytes generalizing host addr with
  | nil =>
    cases h
    exact hinv
  | cons v vs ih =>
    rw [Session.loadFrom] at h
    split at h
    case h_1 hload =>
      obtain ⟨mem, hwrite, rfl⟩ := load_next hload
      refine ih ?_ ?_ h
      · exact hinv.with_mem hrun (Memory.wf_writeMem hinv.memory hwrite)
      · exact hrun
    case h_2 | h_3 => cases h

/-- The run loop keeps the invariant (R81). -/
theorem State.Inv.runFor {s : State} (hs : s.Inv) (k : Nat) : (s.runFor k).Inv := by
  induction k generalizing s with
  | zero => exact hs
  | succ k ih =>
    by_cases hrun : s.outcome = .running
    · obtain ⟨t, ht⟩ := step_next_of_running hrun
      rw [runFor_succ_of_next ht]
      exact ih (stepKeepsInvariant s t hs ht)
    · rw [runFor_of_not_running hrun]
      exact hs

/-- Settles O51: the invariant holds at construction, a load keeps it, and so does every step of the run. -/
theorem everyRunOfALoadedProgramKeepsInvariant : Obligations.EveryRunOfALoadedProgramKeepsInvariant := by
  unfold Obligations.EveryRunOfALoadedProgramKeepsInvariant
  intro program host k h
  have hloaded : host.machine.Inv := inv_of_loadFrom (host := Session.construct) resetSatisfiesInvariant rfl h
  exact hloaded.runFor k

end Sys2Proof.Machine
end

section
/-! PROOFS. The ALU: its register checks, what it writes on valid operands, the error that no instruction makes it raise,
and the branch that follows a comparison. -/

namespace Sys2Proof.Machine

/-! ### The ALU's contract -/

/-- The sum that the ALU writes, as a number (R111, R113). -/
theorem toNat_addBytes (va vb : Byte) : (addBytes va vb).toNat = (va.toNat + vb.toNat) % 256 :=
  toNat_ofNat_of_le (by omega)

/-- The product that the ALU writes, as a number (R111, R112). -/
theorem toNat_mulBytes (va vb : Byte) : (mulBytes va vb).toNat = va.toNat * vb.toNat % 256 :=
  toNat_ofNat_of_le (by omega)

/-- Each flag of a comparison says which way the unsigned values compare (R26, R114). -/
theorem compareFlags_iff (va vb : Byte) :
    (compareFlags va vb = 0x01 ↔ va.toNat = vb.toNat) ∧ (compareFlags va vb = 0x02 ↔ va.toNat > vb.toNat) ∧
      (compareFlags va vb = 0x04 ↔ va.toNat < vb.toNat) := by
  rw [compareFlags_eq]
  split
  case isTrue heq => simp [heq]
  case isFalse hne =>
    split
    case isTrue hgt => simp [hne, hgt, Nat.le_of_lt hgt]
    case isFalse hle => simp [hne, hle, Nat.lt_of_le_of_ne (Nat.le_of_not_gt hle) hne]

/-- The ALU checks its first register before anything else (R111, R143). -/
theorem alu_of_ge_left {a : Byte} (ha : Config.numRegs ≤ a.toNat) (op : AluOp) (b : Byte) (s : State) :
    alu op a b s = .error (.addressOutOfRange .register a.toNat) := by
  rw [alu, checkReg_of_ge ha, error_bind]

/-- The ALU checks its second register where the first one exists (R111, R143). -/
theorem alu_of_ge_right {a b : Byte} (ha : a.toNat < Config.numRegs) (hb : Config.numRegs ≤ b.toNat) (op : AluOp)
    (s : State) : alu op a b s = .error (.addressOutOfRange .register b.toNat) := by
  rw [alu, checkReg_of_lt ha, ok_bind, checkReg_of_ge hb, error_bind]

/-- Settles O57: the two register checks in their order, and on valid operands the result of each operation. -/
theorem aluWritesRegisterOrFlagsNeverBoth : Obligations.AluWritesRegisterOrFlagsNeverBoth := by
  unfold Obligations.AluWritesRegisterOrFlagsNeverBoth
  intro op a b s
  refine ⟨fun ha => alu_of_ge_left ha op b s, fun ha hb => alu_of_ge_right ha hb op s, fun ha hb => ?_⟩
  rw [alu_of_lt ha hb]
  refine ⟨?add, ?mul, ?compare, ?other⟩
  case add =>
    rintro rfl
    exact ⟨_, rfl, toNat_addBytes _ _⟩
  case mul =>
    rintro rfl
    exact ⟨_, rfl, toNat_mulBytes _ _⟩
  case compare =>
    rintro rfl
    exact ⟨_, rfl, compareFlags_iff _ _⟩
  case other =>
    rintro name rfl
    rfl

/-! ### The instructions ask only for what the ALU implements -/

/-- Settles O58: every cause that an instruction can raise with is an address or an index out of range. -/
theorem noInstructionRaisesUnsupportedAluOperation : Obligations.NoInstructionRaisesUnsupportedAluOperation := by
  unfold Obligations.NoInstructionRaisesUnsupportedAluOperation
  intro i s t record op hs h ht
  obtain ⟨c, hc, rfl⟩ := raises_of_not_noError hs h fun hno => hno record ht
  cases ht
  cases hc with
  | register | pushBound | popBound | advance => nofun

/-! ### A comparison and the branch after it -/

/-- A machine that takes a step has no error (R82). -/
theorem noError_of_step_next {s t : State} (h : step s = .next t) : s.noError := by
  simp [State.noError, running_of_step_next h]

/-- A comparison sets E exactly for equal bytes (R114). -/
theorem equalSet_compareFlags (va vb : Byte) : equalSet (compareFlags va vb) = decide (va = vb) := by
  unfold compareFlags
  split
  case isTrue heq => simp [heq, equalSet, flagE]
  case isFalse hne => split <;> simp [hne, equalSet, flagG, flagL]

/-- A CMP that leaves no error compared two registers that exist, and left the register file as it was (R114). -/
theorem regs_and_equalSet_of_cmp {a b : Byte} {s t : State} (h : exec (.cmp a b) s = .next t) (ht : t.noError) :
    t.regs = s.regs ∧ ∃ (_ : a.toNat < Config.numRegs) (_ : b.toNat < Config.numRegs),
      equalSet t.fl = decide (s.regs[a.toNat] = s.regs[b.toNat]) := by
  obtain ⟨_, ⟨ha, hb, _, rfl⟩, rfl⟩ := effect_of_noError h ht
  exact ⟨endStep_regs _, ha, hb, by rw [endStep_fl, equalSet_compareFlags]⟩

/-- PC after a JEQ that leaves no error, by E (R134). -/
theorem pc_of_jeq {c : Byte} {s t : State} (h : exec (.jeq c) s = .next t) (ht : t.noError) :
    ∃ _ : c.toNat < Config.numRegs, t.pc = if equalSet s.fl then s.regs[c.toNat] else s.pc + 2 := by
  obtain ⟨_, ⟨hc, ⟨hE, rfl⟩ | ⟨hE, _, rfl⟩⟩, rfl⟩ := effect_of_noError h ht
  · exact ⟨hc, by rw [endStep_pc, hE, if_pos rfl]⟩
  · exact ⟨hc, by rw [endStep_pc, hE, if_neg Bool.false_ne_true, ofNat_toNat_add]; rfl⟩

/-- PC after a JNE that leaves no error, by E (R135). -/
theorem pc_of_jne {c : Byte} {s t : State} (h : exec (.jne c) s = .next t) (ht : t.noError) :
    ∃ _ : c.toNat < Config.numRegs, t.pc = if equalSet s.fl then s.pc + 2 else s.regs[c.toNat] := by
  obtain ⟨_, ⟨hc, ⟨hE, rfl⟩ | ⟨hE, _, rfl⟩⟩, rfl⟩ := effect_of_noError h ht
  · exact ⟨hc, by rw [endStep_pc, hE, if_neg Bool.false_ne_true]⟩
  · exact ⟨hc, by rw [endStep_pc, hE, if_pos rfl, ofNat_toNat_add]; rfl⟩

/-- Settles O42: the CMP leaves the registers as they were and E set exactly where they were equal, and each of the two
branches chooses PC by E. -/
theorem compareThenBranch : Obligations.CompareThenBranch := by
  unfold Obligations.CompareThenBranch
  intro s t u a b c hcmp hst htu hu
  have ht : t.noError := noError_of_step_next htu
  obtain ⟨hregs, ha, hb, hE⟩ := regs_and_equalSet_of_cmp (exec_of_step_noError hcmp hst ht) ht
  refine ⟨fun hi => ?_, fun hi => ?_⟩
  · obtain ⟨hc, hpc⟩ := pc_of_jeq (exec_of_step_noError hi htu hu) hu
    refine ⟨ha, hb, hc, ?_⟩
    simpa only [hE, hregs, decide_eq_true_eq] using hpc
  · obtain ⟨hc, hpc⟩ := pc_of_jne (exec_of_step_noError hi htu hu) hu
    refine ⟨ha, hb, hc, ?_⟩
    simpa only [hE, hregs, decide_eq_true_eq] using hpc

end Sys2Proof.Machine
end

section
/-! PROOFS. A push and the pop after it. -/

namespace Sys2Proof.Machine

/-- A POP that leaves no error loaded its register from where SP pointed, and moved SP up by one (R122). -/
theorem reg_and_sp_of_pop {b : Byte} {t u : State} (h : exec (.pop b) t = .next u) (hu : u.noError) :
    ∃ _ : b.toNat < Config.numRegs, u.regs[b.toNat] = t.mem.read t.sp.toNat ∧ u.sp = t.sp + 1 := by
  obtain ⟨_, ⟨hb, _, _, rfl⟩, rfl⟩ := effect_of_noError h hu
  exact ⟨hb, by simp only [endStep_regs, Vector.getElem_set_self], endStep_sp _⟩

/-- Settles O40: the PUSH stored its register's value at SP - 1 and moved SP there, and the POP loads from there and
moves SP back up, which undoes the decrement. -/
theorem pushThenPopMovesTheValue : Obligations.PushThenPopMovesTheValue := by
  unfold Obligations.PushThenPopMovesTheValue
  intro s t u a b hwf hpush hst hpop htu hu
  have ht : t.noError := noError_of_step_next htu
  obtain ⟨ha, hspt, hread⟩ := read_of_push hwf (exec_of_step_noError hpush hst ht) ht
  obtain ⟨hb, hreg, hspu⟩ := reg_and_sp_of_pop (exec_of_step_noError hpop htu hu) hu
  refine ⟨ha, hb, ?_, ?_⟩
  · rw [hreg, hspt, hread]
  · rw [hspu, hspt, BitVec.sub_add_cancel]

end Sys2Proof.Machine
end

section
/-! PROOFS. The unconditional jump, and a CALL with the RET that returns from it. -/

namespace Sys2Proof.Machine

/-- Settles O27: JMP has its effect, and the step's last line sets the outcome. -/
theorem jmpSetsPc : Obligations.JmpSetsPc := by
  unfold Obligations.JmpSetsPc
  intro a s ha
  rw [exec_of_effect (i := .jmp a) ⟨ha, rfl⟩, endStep_eq]

/-- A CALL that leaves no error moved SP down by one (R131). -/
theorem sp_of_call {a : Byte} {s t : State} (h : exec (.call a) s = .next t) (ht : t.noError) : t.sp = s.sp - 1 := by
  obtain ⟨_, ⟨_, _, _, rfl⟩, rfl⟩ := effect_of_noError h ht
  exact endStep_sp _

/-- A RET that leaves no error loaded PC from where SP pointed, moved SP up by one and kept the registers (R132). -/
theorem pc_sp_regs_of_ret {u v : State} (h : exec .ret u = .next v) (hv : v.noError) :
    v.pc = u.mem.read u.sp.toNat ∧ v.sp = u.sp + 1 ∧ v.regs = u.regs := by
  obtain ⟨_, ⟨_, rfl⟩, rfl⟩ := effect_of_noError h hv
  exact ⟨endStep_pc _, endStep_sp _, endStep_regs _⟩

/-- Settles O41: the CALL stored its return address at SP - 1 and moved SP there; SP and that byte being as it left
them, the RET loads the address into PC and moves SP back up, which undoes the decrement. -/
theorem callThenRetReturns : Obligations.CallThenRetReturns := by
  unfold Obligations.CallThenRetReturns
  intro s t u v a hwf hcall hst ht hspu hmemu hret huv hv
  have hexec := exec_of_step_noError hcall hst ht
  have hspt : t.sp = s.sp - 1 := sp_of_call hexec ht
  obtain ⟨_, hread⟩ := read_of_call hwf hexec ht
  obtain ⟨hpc, hspv, hregs⟩ := pc_sp_regs_of_ret (exec_of_step_noError hret huv hv) hv
  refine ⟨?_, ?_, hregs⟩
  · rw [hpc, hspu, hmemu, hspt, hread]
  · rw [hspv, hspu, hspt, BitVec.sub_add_cancel]

end Sys2Proof.Machine
end

section
/-! PROOFS. The exceptions: what a step can raise, which register operand an error reports, and the fields of its record. -/

namespace Sys2Proof.Machine

/-! ### The operand that an error reports -/

/-- Settles O14: the first register operand of 8 or more is the instruction's one cause to raise, and the raise changes the
outcome alone. -/
theorem registerOperandsAreCheckedFirst : Obligations.RegisterOperandsAreCheckedFirst := by
  unfold Obligations.RegisterOperandsAreCheckedFirst
  intro i s x hx
  exact exec_of_raises (.register x hx)

/-- The bad register is an operand of the instruction, and no register has its number (R143). -/
theorem mem_and_ge_of_badReg {i : Instr} {x : Byte} (h : badReg i = some x) : x ∈ i.regOperands ∧ 8 ≤ x.toNat :=
  ⟨List.mem_of_find?_eq_some h, by simpa using List.find?_some h⟩

/-! ### The instructions of each listed case -/

/-- The instructions that push (R50). -/
theorem eq_push_or_call {i : Instr} (h : i.mnemonic = .push ∨ i.mnemonic = .call) : ∃ a, i = .push a ∨ i = .call a := by
  cases i with
  | push a => exact ⟨a, .inl rfl⟩
  | call a => exact ⟨a, .inr rfl⟩
  | _ => simp [Instr.mnemonic] at h

/-- The instructions that pop (R50). -/
theorem eq_ret_or_pop {i : Instr} (h : i.mnemonic = .pop ∨ i.mnemonic = .ret) : i = .ret ∨ ∃ a, i = .pop a := by
  cases i with
  | pop a => exact .inr ⟨a, rfl⟩
  | ret => exact .inl rfl
  | _ => simp [Instr.mnemonic] at h

/-- The instructions of three bytes (R61, R64). -/
theorem eq_of_width_three {i : Instr} (h : i.width = 3) :
    ∃ a b, i = .ldi a b ∨ i = .mul a b ∨ i = .add a b ∨ i = .cmp a b := by
  cases i with
  | ldi a b | mul a b | add a b | cmp a b => exact ⟨a, b, by simp⟩
  | _ => cases h

/-- Where a step runs an instruction, PC at most 253, only three bytes from 253 on pass the address 255 (R84, R88). -/
theorem pc_and_width_of_advance {i : Instr} {s : State} (hp : s.pc.toNat ≤ 253) (h : 255 < s.pc.toNat + i.width) :
    s.pc.toNat = 253 ∧ i.width = 3 := by
  have hw := width_le i
  omega

/-! ### What a step can raise -/

/-- Settles O13: the error is that of a candidate read, of the dispatch or of the instruction at PC, and an instruction
raises for its operand, for SP at its bound, or for the advance past 255, which from PC at most 253 takes three bytes. -/
theorem stepRaisesOnlyTheListedCauses : Obligations.StepRaisesOnlyTheListedCauses := by
  unfold Obligations.StepRaisesOnlyTheListedCauses
  intro s t record h ht
  obtain ⟨_, ⟨hp, rfl⟩ | ⟨_, hnone, rfl⟩ | ⟨hp, i, hi, hexec⟩⟩ := step_cases h
  · cases ht
    exact .inl ⟨rfl, hp⟩
  · cases ht
    exact .inr (.inl ⟨rfl, hnone⟩)
  · obtain ⟨c, hc, rfl⟩ := raises_of_not_noError (noError_of_step_next h) hexec fun hno => hno record ht
    cases ht
    refine .inr (.inr ⟨i, hi, ?_⟩)
    cases hc with
    | register x hx =>
      obtain ⟨hmem, hge⟩ := mem_and_ge_of_badReg hx
      exact .inl ⟨x, hmem, hge, rfl⟩
    | pushBound _ hm hsp => exact .inr (.inl ⟨rfl, hsp, eq_push_or_call hm⟩)
    | popBound _ hm hsp => exact .inr (.inr (.inl ⟨rfl, hsp, eq_ret_or_pop hm⟩))
    | advance _ _ _ _ hover =>
      obtain ⟨hpc, hwidth⟩ := pc_and_width_of_advance hp hover
      exact .inr (.inr (.inr ⟨by rw [hpc, hwidth]; rfl, hpc, eq_of_width_three hwidth⟩))

/-! ### The fields of a record -/

/-- Settles O56: the record's fields are those of its cause. -/
theorem errorRecordFields : Obligations.ErrorRecordFields := by
  unfold Obligations.ErrorRecordFields
  rintro ⟨cause, pc, opcode⟩
  refine ⟨?addressOutOfRange, ?decodeError, ?unsupportedAluOperation⟩
  case addressOutOfRange =>
    rintro space value rfl
    exact ⟨rfl, rfl, rfl, rfl, rfl⟩
  case decodeError =>
    rintro rfl
    exact ⟨rfl, rfl, rfl, rfl, rfl⟩
  case unsupportedAluOperation =>
    rintro op rfl
    exact ⟨rfl, rfl, rfl, rfl, rfl⟩

end Sys2Proof.Machine
end

section
/-! PROOFS. Boot: a program that fits is placed in memory from address 0 on, and a longer one fails at address 256. -/

namespace Sys2Proof.Machine

/-! ### What a placed cell reads as -/

/-- Below the first address nothing was placed; from there on each cell holds its byte, and past the last byte what it
held before (R51, R166). -/
theorem Memory.read_place {m : Memory} (hm : m.wf = true) {addr : Nat} {bytes : List Byte}
    (hfit : addr + bytes.length ≤ Config.memSize) (a : Nat) :
    (m.place addr bytes).read a = if a < addr then m.read a else (bytes[a - addr]?).getD (m.read a) := by
  induction bytes generalizing m addr with
  | nil => simp [Memory.place]
  | cons v vs ih =>
    rw [List.length_cons] at hfit
    have haddr : addr < Config.memSize := by omega
    rw [Memory.place, if_pos haddr, ih (Memory.wf_write hm haddr v) (by omega)]
    obtain hlt | rfl | hgt := Nat.lt_trichotomy a addr
    · rw [if_pos (Nat.lt_succ_of_lt hlt), if_pos hlt, Memory.read_write_of_ne _ (Nat.ne_of_lt hlt)]
    · simp [Memory.read_write_self hm]
    · rw [if_neg (Nat.not_lt.mpr hgt), if_neg (Nat.lt_asymm hgt), Memory.read_write_of_ne _ (Nat.ne_of_gt hgt),
        show a - addr = a - (addr + 1) + 1 by omega, List.getElem?_cons_succ]

/-! ### Loading the bytes one after another -/

/-- A byte's value is in range, and as an integer it is the byte again (R34). -/
theorem outOfRange_toNat (v : Byte) : outOfRange v.toNat = false :=
  outOfRange_eq_false_iff.mpr (by omega)

/-- Before `run`, the `load` of a byte is the checked write alone (R34, R43). -/
theorem load_byte {host : Session} (hrun : host.runCalled = false) (addr : Nat) (v : Byte) :
    host.load addr v.toNat = if addr < Config.memSize
      then .next { host with machine := { host.machine with mem := host.machine.mem.write addr v } }
      else .fault (.addressOutOfRange .memory addr) := by
  rw [Session.load, if_neg (by simp [hrun]), if_neg (by simp [outOfRange_toNat]), BitVec.ofInt_natCast,
    BitVec.ofNat_toNat, BitVec.setWidth_eq]
  have hsize : Config.memSize = 256 := rfl
  split_ifs with haddr
  · rw [(readMem_writeMem_of_le (by omega) _ v).2, Int.toNat_natCast]
  · rw [(readMem_writeMem_of_outside (by omega) _ v).2]

/-- Before `run`, bytes that fit are placed at consecutive addresses and nothing else changes (R166). -/
theorem loadFrom_of_fits {host : Session} (hrun : host.runCalled = false) {addr : Nat} {bytes : List Byte}
    (hfit : addr + bytes.length ≤ Config.memSize) :
    host.loadFrom addr bytes =
      .next { host with machine := { host.machine with mem := host.machine.mem.place addr bytes } } := by
  induction bytes generalizing host addr with
  | nil => rfl
  | cons v vs ih =>
    rw [List.length_cons] at hfit
    have haddr : addr < Config.memSize := by omega
    simp only [Session.loadFrom, Memory.place, load_byte hrun, if_pos haddr]
    refine ih ?_ ?_
    · exact hrun
    · omega

/-- Before `run`, bytes that do not fit fail at the first address past the last one (R34, R166). -/
theorem loadFrom_of_not_fits {host : Session} (hrun : host.runCalled = false) {addr : Nat} {bytes : List Byte}
    (haddr : addr ≤ Config.memSize) (hlong : Config.memSize < addr + bytes.length) :
    host.loadFrom addr bytes = .fault (.addressOutOfRange .memory Config.memSize) := by
  induction bytes generalizing host addr with
  | nil => exact absurd haddr (Nat.not_le.mpr hlong)
  | cons v vs ih =>
    rw [List.length_cons] at hlong
    rw [Session.loadFrom, load_byte hrun]
    obtain hlt | rfl := Nat.lt_or_eq_of_le haddr
    · rw [if_pos hlt]
      refine ih ?_ hlt ?_
      · exact hrun
      · omega
    · rw [if_neg (Nat.lt_irrefl _)]

/-- Settles O53: a program that fits is placed from address 0 on in a memory that reads 0 everywhere, and the load of a
longer one fails at address 256. -/
theorem programBytesLieFromAddressZero : Obligations.ProgramBytesLieFromAddressZero := by
  unfold Obligations.ProgramBytesLieFromAddressZero
  intro program
  refine ⟨fun hfit => ?_, fun hlong => ?_⟩
  · have hfit : 0 + program.length ≤ Config.memSize := by rwa [Nat.zero_add]
    refine ⟨Memory.place [] 0 program, loadFrom_of_fits rfl hfit, fun addr => ?_⟩
    rw [Memory.read_place rfl hfit, if_neg (Nat.not_lt_zero addr)]
    rfl
  · exact loadFrom_of_not_fits rfl (Nat.zero_le _) (by rwa [Nat.zero_add])

end Sys2Proof.Machine
end
